-- ==== Sys2Proof/Word.lean ====
section
/-! DEFINITION. The word types of the ISO-TP link: a byte, an arbitration identifier, a clock value. -/

namespace Sys2Proof

/-- A byte is 8 bits (20_memory.md R60). -/
abbrev Byte := BitVec 8

/-- A nibble: half of a frame byte (30_encoding.md section 1). -/
abbrev Nibble := BitVec 4

/-- An arbitration identifier, 32 opaque bits (10_state.md R23, R33). -/
abbrev Ident := BitVec 32

/-- A value of the free-running 32-bit millisecond counter (60_exceptions.md R257). -/
abbrev Time := BitVec 32

end Sys2Proof
end

