-- ==== Sys2Proof/Syntax.lean ====
section
/-! DEFINITION. The syntax: the instructions of the opcode table (the inbound frames and the host operations), the form
in which a step is presented with one, and the results of the frame decoder. -/

namespace Sys2Proof

/-- The instructions: one constructor for each mnemonic of spec/opcode_table.json. The frame constructors carry the
fields of the frame (30_encoding.md R85 to R92); a frame instruction is the RX operation on a frame of that shape. -/
inductive Instr where
  /-- SF: a single frame; SF_DL is the number of data bytes (R80, R86). -/
  | sf (data : List Byte)
  /-- FF: a first frame announcing `ffDl` bytes, with its 6 data bytes (R81, R87). -/
  | ff (ffDl : BitVec 12) (data : List Byte)
  /-- CF: a consecutive frame (R82, R88). -/
  | cf (sn : Nibble) (data : List Byte)
  /-- FC.CTS: flow control, continue (R83, R94). -/
  | fcCts (bs : Byte) (st : Byte)
  /-- FC.WAIT: flow control, wait (R83, R94). -/
  | fcWait (bs : Byte) (st : Byte)
  /-- FC.OVFLW: flow control, overflow (R83, R94). -/
  | fcOvflw (bs : Byte) (st : Byte)
  /-- FC.RSVD: flow control with a flow status the document does not name (R99). -/
  | fcRsvd (fs : Nibble) (bs : Byte) (st : Byte)
  /-- RSVD.TYPE: a frame whose PCI type selects no shape (R97). -/
  | rsvdType (pci : Nibble) (low : Nibble) (rest : List Byte)
  /-- INIT (R221). -/
  | init (sendId : Ident) (receiveId : Ident)
  /-- SEND; `length` is the number of payload bytes (R150, R226). -/
  | send (payload : List Byte)
  /-- RX; `len` is the number of raw bytes (R222, R226). -/
  | rx (raw : List Byte)
  /-- POLL (R223). -/
  | poll
  /-- RECV (R200). -/
  | recv (outCapacity : BitVec 16)
  deriving DecidableEq, Repr

/-- The command port of one step (30_encoding.md R110, R111): the 5-bit select and the operand inputs. -/
structure Command where
  op : BitVec 5
  sendId : Ident := 0
  receiveId : Ident := 0
  payload : List Byte := []
  raw : List Byte := []
  outCapacity : BitVec 16 := 0
  deriving DecidableEq, Repr

/-- What one step is presented with: a command, or an inbound frame by itself. The second is the RX operation named by
its frame, so that the frame rows of the opcode table are instructions of their own. DESIGN CHOICE (log 7), safe. -/
inductive Image where
  | command (c : Command)
  | frame (raw : List Byte)
  deriving DecidableEq, Repr

/-- One request of the environment: what is presented, the clock value of that step (60_exceptions.md R257) and the
answer the transmit collaborator gives if the step makes an attempt (R263). -/
structure Request where
  image : Image
  now : Time := 0
  txOk : Bool := true
  deriving DecidableEq, Repr

/-- A decoded frame: "a tagged union over the 4 shapes" (30_encoding.md section 1). -/
inductive Frame where
  | single (data : List Byte)
  | first (ffDl : BitVec 12) (data : List Byte)
  | consecutive (sn : Nibble) (data : List Byte)
  | flowControl (fs : Nibble) (bs : Byte) (st : Byte)
  deriving DecidableEq, Repr

/-- Why the frame decoder rejects (40_codec.md R138, one name for each Reject row). -/
inductive FrameReject where
  /-- Fewer than 2 bytes (R131). -/
  | tooShort
  /-- More than 8 bytes (R131). -/
  | tooLong
  /-- A single frame whose SF_DL exceeds its data bytes (R133). -/
  | singleLength
  /-- A first frame that is not 8 bytes long (R134). -/
  | firstNotEightBytes
  /-- A first frame with FF_DL below 8 (R134). -/
  | firstTotalBelowEight
  /-- A flow-control frame shorter than 3 bytes (R136). -/
  | flowControlLength
  /-- PCI type 4 to 15 (R137). -/
  | unknownType
  deriving DecidableEq, Repr

/-- The result of the frame decoder (40_codec.md R130). -/
inductive Verdict where
  | single (data : List Byte)
  | first (ffDl : BitVec 12) (data : List Byte)
  | firstOverflow (ffDl : BitVec 12)
  | consecutive (sn : Nibble) (data : List Byte)
  | flowControl (fs : Nibble) (bs : Byte) (st : Byte)
  | reject (why : FrameReject)
  deriving DecidableEq, Repr

/-- Why an image holds no instruction. -/
inductive DecodeReject where
  /-- `op = 0`: no operation is presented (30_encoding.md R110). -/
  | noOperation
  /-- Two or more bits of `op` are set: concurrent calls (R110, 93_implementation_defined.md U1). -/
  | multiHot
  /-- The frame is one the codec drops (40_codec.md R138). -/
  | badFrame (why : FrameReject)
  deriving DecidableEq, Repr

end Sys2Proof
end

