-- ==== Sys2Proof/WellFormed.lean ====
section
/-! DEFINITION. Well-formed instructions: the operand ranges of 30_encoding.md and 40_codec.md R130. -/

namespace Sys2Proof

/-- The range checks of an instruction. The host operations have none: their operands are port values of fixed width or
byte arrays of any length (92_eei_decisions.md D35 allows unbounded lengths; log 9). -/
def Instr.wellFormed : Instr → Bool
  | .sf data => decide (data.length ≤ 7)
  | .ff ffDl data => decide (8 ≤ ffDl.toNat ∧ data.length = 6)
  | .cf _ data => decide (1 ≤ data.length ∧ data.length ≤ 7)
  | .fcCts _ _ => true
  | .fcWait _ _ => true
  | .fcOvflw _ _ => true
  | .fcRsvd fs _ _ => decide (3 ≤ fs.toNat)
  | .rsvdType pci _ rest => decide (4 ≤ pci.toNat ∧ 1 ≤ rest.length ∧ rest.length ≤ 7)
  | .init _ _ => true
  | .send _ => true
  | .rx _ => true
  | .poll => true
  | .recv _ => true

end Sys2Proof
end

