-- ==== Sys2Proof/Decode.lean ====
section
/-! DEFINITION. The frame codec (40_codec.md) and the instruction decoder and encoder built on it. All are pure, total
functions; the configuration enters as the arguments `padMode` (PAD) and `maxMsg` (MAX_MSG). -/

namespace Sys2Proof

/-! ### Bit fields of a frame byte (00_scope.md section 5) -/

/-- `b[7:4]`. -/
def hiNibble (b : Byte) : Nibble := b.extractLsb' 4 4

/-- `b[3:0]`. -/
def loNibble (b : Byte) : Nibble := b.extractLsb' 0 4

/-- `{hi, lo}`: a byte from its two nibbles. -/
def packNibbles (hi lo : Nibble) : Byte := hi ++ lo

/-- FF_DL of a first frame: `{f[0][3:0], f[1][7:0]}` (30_encoding.md R87). -/
def packLength (hi : Nibble) (lo : Byte) : BitVec 12 := hi ++ lo

/-- FF_DL[11:8]. -/
def lengthHi (n : BitVec 12) : Nibble := n.extractLsb' 8 4

/-- FF_DL[7:0]. -/
def lengthLo (n : BitVec 12) : Byte := n.extractLsb' 0 8

/-! ### Flow status codes (30_encoding.md R94; PRESUMED by the spec itself, G1: log 11) -/

def fsContinue : Nibble := 0
def fsWait : Nibble := 1
def fsOverflow : Nibble := 2

/-! ### Separation time -/

/-- Milliseconds to wire code (40_codec.md R128). -/
def stEncode (ms : Nat) : Byte := if ms ≤ 127 then BitVec.ofNat 8 ms else 127

/-- Wire code to milliseconds (40_codec.md R129). -/
def stDecode (code : Byte) : BitVec 8 :=
  if code.toNat ≤ 0x7F then code
  else if 0xF1 ≤ code.toNat ∧ code.toNat ≤ 0xF9 then 1
  else 0

/-! ### Encoders of the frames the block transmits -/

/-- `pad(f)` (40_codec.md R120), for 1 to 8 bytes; the model also answers for other lengths, leaving more than 8 bytes as
they are. DESIGN CHOICE (log 12), safe: no operation uses it there. -/
def padFrame (padMode : Bool) (f : List Byte) : List Byte :=
  if padMode then f ++ List.replicate (8 - f.length) 0 else f

/-- `encode_single` (40_codec.md R121). Its precondition is a payload of at most 7 bytes; for a longer one the model answers
with the length modulo 16 in the low nibble. DESIGN CHOICE (log 12), safe: no operation uses it there. -/
def encodeSingle (padMode : Bool) (payload : List Byte) : List Byte :=
  padFrame padMode (packNibbles 0 (BitVec.ofNat 4 payload.length) :: payload)

/-- `encode_first` (40_codec.md R122). Outside its precondition the value has no meaning and no operation uses it
(93_implementation_defined.md U2). DESIGN CHOICE (log 12), safe. -/
def encodeFirst (totalLen : BitVec 12) (first6 : List Byte) : List Byte :=
  packNibbles 1 (lengthHi totalLen) :: lengthLo totalLen :: first6

/-- `encode_consecutive` (40_codec.md R123). Its precondition is a chunk of 1 to 7 bytes; the model also answers for others.
DESIGN CHOICE (log 12), safe: no operation uses it there. -/
def encodeConsecutive (padMode : Bool) (seq : Nibble) (chunk : List Byte) : List Byte :=
  padFrame padMode (packNibbles 2 seq :: chunk)

/-- `encode_flow_control` (40_codec.md R124). Its precondition is one of the three named statuses; the model also answers for
the others. DESIGN CHOICE (log 12), safe: no operation uses it there. -/
def encodeFlowControl (padMode : Bool) (fs : Nibble) (bs : Byte) (stMs : Nat) : List Byte :=
  padFrame padMode [packNibbles 3 fs, bs, stEncode stMs]

/-! ### The frame decoder (40_codec.md R130 to R138) -/

/-- Single frame arm (R133). -/
def decodeSingleArm (dl : Nibble) (rest : List Byte) : Except FrameReject Frame :=
  if rest.length < dl.toNat then .error .singleLength else .ok (.single (rest.take dl.toNat))

/-- First frame arm (R134), before the comparison with MAX_MSG. -/
def decodeFirstArm (hi : Nibble) (rest : List Byte) : Except FrameReject Frame :=
  match rest with
  | [] => .error .firstNotEightBytes
  | lo :: data =>
    if data.length ≠ 6 then .error .firstNotEightBytes
    else if (packLength hi lo).toNat < 8 then .error .firstTotalBelowEight
    else .ok (.first (packLength hi lo) data)

/-- Flow-control arm (R136). -/
def decodeFlowControlArm (fs : Nibble) (rest : List Byte) : Except FrameReject Frame :=
  match rest with
  | bs :: st :: _ => .ok (.flowControl fs bs st)
  | _ => .error .flowControlLength

/-- The arms chosen by the PCI type (R133 to R137) for a frame `b0 :: rest` that passed the length gate. -/
def decodeArms (b0 : Byte) (rest : List Byte) : Except FrameReject Frame :=
  if hiNibble b0 = 0 then decodeSingleArm (loNibble b0) rest
  else if hiNibble b0 = 1 then decodeFirstArm (loNibble b0) rest
  else if hiNibble b0 = 2 then .ok (.consecutive (loNibble b0) rest)
  else if hiNibble b0 = 3 then decodeFlowControlArm (loNibble b0) rest
  else .error .unknownType

/-- The decoder less the comparison of FF_DL with MAX_MSG: the length gate (R131), then the arms. -/
def decodeShape (raw : List Byte) : Except FrameReject Frame :=
  match raw with
  | [] => .error .tooShort
  | b0 :: rest =>
    if rest.length < 1 then .error .tooShort
    else if 7 < rest.length then .error .tooLong
    else decodeArms b0 rest

/-- `decode(raw, len)` (R130): a first frame longer than MAX_MSG gives the overflow signal (R134). -/
def decodeFrame (maxMsg : Nat) (raw : List Byte) : Verdict :=
  match decodeShape raw with
  | .error why => .reject why
  | .ok (.single data) => .single data
  | .ok (.first n data) => if maxMsg < n.toNat then .firstOverflow n else .first n data
  | .ok (.consecutive sn data) => .consecutive sn data
  | .ok (.flowControl fs bs st) => .flowControl fs bs st

/-! ### The instruction decoder -/

/-- The instruction a frame of a known shape stands for. -/
def instrOfFrame : Frame → Instr
  | .single data => .sf data
  | .first n data => .ff n data
  | .consecutive sn data => .cf sn data
  | .flowControl fs bs st =>
    if fs = fsContinue then .fcCts bs st
    else if fs = fsWait then .fcWait bs st
    else if fs = fsOverflow then .fcOvflw bs st
    else .fcRsvd fs bs st

/-- A frame by itself. A frame of unknown type is the instruction RSVD.TYPE; the codec's other rejections hold no
instruction. -/
def decodeFrameImage (raw : List Byte) : Except DecodeReject Instr :=
  match decodeShape raw with
  | .ok f => .ok (instrOfFrame f)
  | .error .unknownType =>
    match raw with
    | [] => .error (.badFrame .tooShort)
    | b0 :: rest => .ok (.rsvdType (hiNibble b0) (loNibble b0) rest)
  | .error why => .error (.badFrame why)

/-- The one-hot select codes (30_encoding.md R110). -/
def opInit : BitVec 5 := 0b00001
def opSend : BitVec 5 := 0b00010
def opRx : BitVec 5 := 0b00100
def opPoll : BitVec 5 := 0b01000
def opRecv : BitVec 5 := 0b10000

/-- The command port (30_encoding.md R110, R111). -/
def decodeCommand (c : Command) : Except DecodeReject Instr :=
  if c.op = 0 then .error .noOperation
  else if c.op = opInit then .ok (.init c.sendId c.receiveId)
  else if c.op = opSend then .ok (.send c.payload)
  else if c.op = opRx then .ok (.rx c.raw)
  else if c.op = opPoll then .ok .poll
  else if c.op = opRecv then .ok (.recv c.outCapacity)
  else .error .multiHot

/-- The decoder: total, rejecting by name. -/
def decode : Image → Except DecodeReject Instr
  | .command c => decodeCommand c
  | .frame raw => decodeFrameImage raw

/-! ### The encoder -/

/-- An image of each instruction. A single frame is given in its 8-byte form, since the natural form of an empty one is
a 1-byte frame that no decoder accepts (30_encoding.md R96); the other frames in their natural form. -/
def encode : Instr → Image
  | .sf data => .frame (encodeSingle true data)
  | .ff n data => .frame (encodeFirst n data)
  | .cf sn data => .frame (encodeConsecutive false sn data)
  | .fcCts bs st => .frame [packNibbles 3 fsContinue, bs, st]
  | .fcWait bs st => .frame [packNibbles 3 fsWait, bs, st]
  | .fcOvflw bs st => .frame [packNibbles 3 fsOverflow, bs, st]
  | .fcRsvd fs bs st => .frame [packNibbles 3 fs, bs, st]
  | .rsvdType pci low rest => .frame (packNibbles pci low :: rest)
  | .init sendId receiveId => .command { op := opInit, sendId := sendId, receiveId := receiveId }
  | .send payload => .command { op := opSend, payload := payload }
  | .rx raw => .command { op := opRx, raw := raw }
  | .poll => .command { op := opPoll }
  | .recv cap => .command { op := opRecv, outCapacity := cap }

/-! ### Words as the opcode table numbers them -/

/-- The 8 bytes of a table word, the first byte its least significant one. -/
def tableBytes (w : Nat) : List Byte := (List.range 8).map fun k => BitVec.ofNat 8 (w >>> (8 * k))

/-- Whether a table word is a host operation row: the 5-bit select, which the table's numbering does not tell apart from
byte 0 of a frame; the five one-hot values of a one-byte word are read as selects. DESIGN CHOICE (log 13). -/
def isTableOp (nbits w : Nat) : Bool := decide (nbits < 8) || (decide (nbits = 8) && [1, 2, 4, 8, 16].contains w)

/-- The image of a table word with all operand bits zero: a select with operands 0 and empty, or an 8-byte frame. -/
def tableImage (nbits w : Nat) : Image :=
  if isTableOp nbits w then .command { op := BitVec.ofNat 5 w } else .frame (tableBytes w)

/-- The instruction the decoder reads from a table word. -/
def decodeTableWord (nbits w : Nat) : Option Instr := (decode (tableImage nbits w)).toOption

end Sys2Proof
end

