-- ==== Sys2Proof/Config.lean ====
section
/-! DEFINITION. The configuration of one instance of the link (00_scope.md R12 to R17): fixed at construction, with the
ranges the spec gives each parameter. -/

namespace Sys2Proof

/-- The configuration parameters. Each range is a field, so that an instance outside it cannot be written down:
93_implementation_defined.md U6 says such an instance is not a link of the spec. -/
structure Config where
  /-- MAX_MSG (R12): capacity of both buffers, SEND's limit and the receive side's limit. -/
  maxMsg : Nat
  /-- BS_DEFAULT (R13): the block size advertised and the reload value of `recv.bs_count`. -/
  bsDefault : Nat
  /-- ST_DEFAULT (R14): the separation time advertised, in milliseconds. -/
  stDefault : Nat
  /-- N_BS (R15): how long the send side waits for a flow-control frame, in milliseconds. -/
  nBs : Nat
  /-- N_CR (R15): how long the receive side waits for a consecutive frame, in milliseconds. -/
  nCr : Nat
  /-- MAX_WFT (R16): how many consecutive wait frames are tolerated. -/
  maxWft : Nat
  /-- PAD (R17): whether every transmitted frame is zero-filled to 8 bytes. -/
  pad : Bool
  maxMsg_ge : 7 ≤ maxMsg := by decide
  maxMsg_le : maxMsg ≤ 4095 := by decide
  bsDefault_ge : 1 ≤ bsDefault := by decide
  bsDefault_le : bsDefault ≤ 255 := by decide
  stDefault_lt : stDefault < 4294967296 := by decide
  nBs_lt : nBs < 2147483648 := by decide
  nCr_lt : nCr < 2147483648 := by decide
  maxWft_le : maxWft ≤ 254 := by decide
  deriving DecidableEq, Repr

/-- CFG0 of 95_test_vectors.md: the document's own example (MAX_MSG 4095, BS_DEFAULT 8, ST_DEFAULT 0) completed by the
values the spec's vectors use. DESIGN CHOICE (log 1), unsafe: `State.reset` holds it, and the spec fixes no value. -/
def Config.cfg0 : Config where
  maxMsg := 4095
  bsDefault := 8
  stDefault := 0
  nBs := 100
  nCr := 100
  maxWft := 1
  pad := false

end Sys2Proof
end

