-- ==== Sys2Proof/Machine/State.lean ====
section
/-! DEFINITION. The state of one link (10_state.md R20): the send context, the receive context, and beside them the
fixed configuration and the ports through which the step's inputs and outputs pass. Plain data. -/

namespace Sys2Proof.Machine

/-- `send.status` (R40); the codes are in Flags.lean. -/
inductive SendStatus where
  | idle
  | inProgress
  | error
  deriving DecidableEq, Repr

/-- `recv.status` (R41); the receive side has no error state (90_conflicts.md C2). -/
inductive RecvStatus where
  | idle
  | inProgress
  | full
  deriving DecidableEq, Repr

/-- A protocol result (R42, 60_exceptions.md R241 to R247). -/
inductive ProtocolResult where
  | ok
  | bufferOverflow
  | wrongSn
  | timeoutBs
  | timeoutCr
  | unexpectedPdu
  | wftOverrun
  deriving DecidableEq, Repr

/-- A call result (R43, 60_exceptions.md R248). -/
inductive CallResult where
  | retOk
  | retOverflow
  | retNoData
  | retError
  deriving DecidableEq, Repr

/-- What a step returns to the host (30_encoding.md R111): nothing, the result of SEND, or the result, the actual length
and the bytes of RECV. -/
inductive Response where
  | nothing
  | sent (result : CallResult)
  | received (result : CallResult) (actualLength : BitVec 16) (out : List Byte)
  deriving DecidableEq, Repr

/-- One transmit attempt: the identifier, the frame and the collaborator's answer (43_link_ops.md R220). -/
structure TxAttempt where
  id : Ident
  frame : List Byte
  ok : Bool
  deriving DecidableEq, Repr

/-- The contents of one buffer: (index, byte) pairs in the canonical form `Memory.wf` of Ops.lean. -/
abbrev Memory := List Host.Cell

/-- The send context (R23 to R32, R40, R42). -/
structure SendContext where
  id : Ident
  buf : Memory
  size : BitVec 12
  offset : BitVec 12
  sn : BitVec 4
  bsCredit : BitVec 8
  stMin : BitVec 8
  waitCount : BitVec 8
  timerBs : Time
  timerSt : Time
  status : SendStatus
  result : ProtocolResult
  deriving DecidableEq, Repr

/-- The receive context (R33 to R39, R41, R42). -/
structure RecvContext where
  id : Ident
  buf : Memory
  size : BitVec 12
  offset : BitVec 12
  sn : BitVec 4
  bsCount : BitVec 8
  timerCr : Time
  status : RecvStatus
  result : ProtocolResult
  deriving DecidableEq, Repr

/-- The machine: the two contexts are the link (R20); `cfg` is the instance's fixed configuration (R283; log 1); the
other fields are the model's record of the ports (R50; log 4, 5, 6). -/
structure State where
  cfg : Config
  send : SendContext
  recv : RecvContext
  /-- Requests the host will present, the next one first. -/
  pending : List Request
  /-- The clock value sampled for the step (60_exceptions.md R257). -/
  now : Time
  /-- The transmit collaborator's answer in the step (60_exceptions.md R263). -/
  txOk : Bool
  /-- What the last step returned to the host. -/
  response : Response
  /-- Every transmit attempt, the oldest first. -/
  trace : List TxAttempt
  deriving DecidableEq, Repr

/-- Why a step stops with a fault. -/
inductive Fault where
  /-- BufRead or BufWrite at an index that does not exist (20_memory.md R62, R63, R69): raised by every meaning that
  reaches a buffer, in states that no run reaches. Safe (log 10). -/
  | bufferRange
  deriving DecidableEq, Repr

/-- Why a step has no meaning. -/
inductive Refusal where
  /-- An instruction without a meaning, by its mnemonic: raised by no arm of this model. Safe. -/
  | notModelled (mnemonic : String)
  /-- Two or more operations presented at once (00_scope.md R9, 93_implementation_defined.md U1): raised by the step on a
  multi-hot select. Safe. -/
  | concurrentOperations
  deriving DecidableEq, Repr

/-- The outcome of an instruction or a step. -/
abbrev Result := Host.Outcome State Fault Refusal

/-- The send context after INIT under identifier `id`, its buffer left as it was (70_reset_and_hazards.md R280). -/
def SendContext.afterInit (id : Ident) (buf : Memory) : SendContext where
  id := id
  buf := buf
  size := 0
  offset := 0
  sn := 0
  bsCredit := 0
  stMin := 0
  waitCount := 0
  timerBs := 0
  timerSt := 0
  status := .idle
  result := .ok

/-- The receive context after INIT, its buffer left as it was (70_reset_and_hazards.md R280). -/
def RecvContext.afterInit (id : Ident) (buf : Memory) : RecvContext where
  id := id
  buf := buf
  size := 0
  offset := 0
  sn := 0
  bsCount := 0
  timerCr := 0
  status := .idle
  result := .ok

/-- The machine after an INIT (R280, R281). The configuration, the identifiers, the empty buffers and the ports are the
model's choices: log 1, 2, 3, 4, 5, 6, unsafe where said there. -/
def State.reset : State where
  cfg := Config.cfg0
  send := SendContext.afterInit 0 []
  recv := RecvContext.afterInit 0 []
  pending := []
  now := 0
  txOk := true
  response := .nothing
  trace := []

end Sys2Proof.Machine
end

