-- ==== Sys2Proof/Machine/Flags.lean ====
section
/-! DEFINITION. The status and result registers as the host reads them (10_state.md R40 to R43, 30_encoding.md R112), and
the comparison of clock values that sets them (60_exceptions.md R258). -/

namespace Sys2Proof.Machine

/-- Codes of `send.status` (R40). -/
def sendStatusCode : SendStatus → BitVec 2
  | .idle => 0
  | .inProgress => 1
  | .error => 2

/-- Codes of `recv.status` (R41). -/
def recvStatusCode : RecvStatus → BitVec 2
  | .idle => 0
  | .inProgress => 1
  | .full => 2

/-- Codes of the protocol results (R42). -/
def protocolResultCode : ProtocolResult → BitVec 3
  | .ok => 0
  | .bufferOverflow => 1
  | .wrongSn => 2
  | .timeoutBs => 3
  | .timeoutCr => 4
  | .unexpectedPdu => 5
  | .wftOverrun => 6

/-- Codes of the call results (R43). -/
def callResultCode : CallResult → BitVec 2
  | .retOk => 0
  | .retOverflow => 1
  | .retNoData => 2
  | .retError => 3

/-- The four registers the host sees between steps: `send.status`, `send.result`, `recv.status`, `recv.result`
(30_encoding.md R112, 43_link_ops.md R224). -/
def readBack (s : State) : BitVec 2 × BitVec 3 × BitVec 2 × BitVec 3 :=
  (sendStatusCode s.send.status, protocolResultCode s.send.result,
    recvStatusCode s.recv.status, protocolResultCode s.recv.result)

/-- `after(a, b)`: a is strictly after b on the wrapping clock (60_exceptions.md R258). -/
def after (a b : Time) : Bool := decide (1 ≤ (a - b).toNat ∧ (a - b).toNat ≤ 2147483647)

/-- The deadline a timer armed at `now` with period `period` holds (60_exceptions.md R259, R261). -/
def deadline (now : Time) (period : Nat) : Time := now + BitVec.ofNat 32 period

/-- The result a single or first frame records, by the status it finds (42_receive.md R181, R183, step (a)). -/
def arrivalResult : RecvStatus → ProtocolResult
  | .inProgress => .unexpectedPdu
  | .idle => .ok
  | .full => .ok

end Sys2Proof.Machine
end

