-- ==== Sys2Proof/Machine/Ops.lean ====
section
/-! DEFINITION. The shared operations: the two buffers, the context updates, the transmit port, the abort of a transfer
(the nearest thing this hardware has to taking an exception), and presenting a request to the block. -/

namespace Sys2Proof.Machine

/-! ### Buffers (20_memory.md section 1) -/

/-- What an index that is not listed reads as. DESIGN CHOICE (log 3), unsafe in itself: contents after INIT are
unspecified (93_implementation_defined.md U7, which says that a model may zero them). -/
def Memory.unlisted : Byte := 0

/-- The byte at index `a`. -/
def Memory.get (m : Memory) (a : Nat) : Byte := (m.lookup a).getD Memory.unlisted

/-- The cells of `bytes` laid from index `i` upward, in canonical form. -/
def Memory.cells (i : Nat) : List Byte → Memory
  | [] => []
  | b :: bs => if b = Memory.unlisted then Memory.cells (i + 1) bs else (i, b) :: Memory.cells (i + 1) bs

/-- `bytes` written at index `i` upward and no other byte changed (20_memory.md R63). -/
def Memory.write (m : Memory) (i : Nat) (bytes : List Byte) : Memory :=
  m.filter (fun c => decide (c.1 < i)) ++ (Memory.cells i bytes ++ m.filter (fun c => decide (i + bytes.length ≤ c.1)))

/-- The canonical form: indices strictly rising, no entry equal to what an unlisted index reads as. -/
abbrev Memory.wf (m : Memory) : Prop :=
  m.Pairwise (fun c d => c.1 < d.1) ∧ ∀ c ∈ m, c.2 ≠ Memory.unlisted

/-- The `n` bytes from index `i`, in increasing index order. -/
def Memory.bytes (m : Memory) (i n : Nat) : List Byte := (List.range n).map fun k => m.get (i + k)

/-- `BufRead(b, i, n)` of a buffer of `cap` bytes: defined only inside the buffer (R62). -/
def bufRead (cap : Nat) (m : Memory) (i n : Nat) : Option (List Byte) :=
  if i + n ≤ cap then some (m.bytes i n) else none

/-- `BufWrite(b, i, bytes)` of a buffer of `cap` bytes: defined only inside the buffer (R63). -/
def bufWrite (cap : Nat) (m : Memory) (i : Nat) (bytes : List Byte) : Option Memory :=
  if i + bytes.length ≤ cap then some (m.write i bytes) else none

/-! ### Updates of the state -/

/-- Replaces the send context. -/
def State.withSend (s : State) (c : SendContext) : State := { s with send := c }

/-- Replaces the receive context. -/
def State.withRecv (s : State) (c : RecvContext) : State := { s with recv := c }

/-- Sets what the step returns to the host. -/
def State.respond (s : State) (r : Response) : State := { s with response := r }

/-- `Transmit(send.id, frame)` (60_exceptions.md R262): records the attempt; the answer is `txOk`. -/
def State.transmit (s : State) (frame : List Byte) : State :=
  { s with trace := s.trace ++ [{ id := s.send.id, frame := frame, ok := s.txOk }] }

/-- The instruction goes on with the bytes of a buffer read, or faults where the read is not defined. -/
def withBytes (r : Option (List Byte)) (k : List Byte → Result) : Result :=
  match r with
  | none => .fault .bufferRange
  | some data => k data

/-- The instruction goes on with the buffer after a write, or faults where the write is not defined. -/
def withBuffer (r : Option Memory) (k : Memory → Result) : Result :=
  match r with
  | none => .fault .bufferRange
  | some buf => k buf

/-! ### Aborting a transfer (60_exceptions.md R253)

The block takes no exceptions (R240). An abort saves nothing and transfers no control; it writes a status and, but for a
transmit failure (R250), a result. There is no return: the next SEND, single frame or first frame starts anew (R254). -/

/-- Abort of the send side with a result. -/
def SendContext.abort (c : SendContext) (r : ProtocolResult) : SendContext := { c with status := .error, result := r }

/-- Abort of the send side by a transmit failure: the result keeps its value (R250). -/
def SendContext.txFailed (c : SendContext) : SendContext := { c with status := .error }

/-- Abort of the receive side with a result. -/
def RecvContext.abort (c : RecvContext) (r : ProtocolResult) : RecvContext := { c with status := .idle, result := r }

/-! ### Timers (60_exceptions.md R259, R261) -/

/-- Arms `send.timer_bs`. -/
def SendContext.armBs (c : SendContext) (cfg : Config) (now : Time) : SendContext :=
  { c with timerBs := deadline now cfg.nBs }

/-- Arms `recv.timer_cr`. -/
def RecvContext.armCr (c : RecvContext) (cfg : Config) (now : Time) : RecvContext :=
  { c with timerCr := deadline now cfg.nCr }

/-! ### Flow-control frames of the receive side (42_receive.md R186) -/

/-- Transmits a "continue" with the configured block size and separation time; the answer is ignored. -/
def State.transmitContinue (s : State) : State :=
  s.transmit (encodeFlowControl s.cfg.pad fsContinue (BitVec.ofNat 8 s.cfg.bsDefault) s.cfg.stDefault)

/-- Transmits an "overflow" with block size and separation time 0; the answer is ignored. -/
def State.transmitOverflow (s : State) : State :=
  s.transmit (encodeFlowControl s.cfg.pad fsOverflow 0 0)

/-! ### Presenting a request -/

/-- The ports of the step: the request leaves the queue, its clock value is sampled (60_exceptions.md R257), its answer
stands at the transmit port, and nothing has been returned yet. -/
def State.latch (s : State) (r : Request) (rest : List Request) : State :=
  { s with pending := rest, now := r.now, txOk := r.txOk, response := .nothing }

/-- What the block does with a presented image: run its instruction; nothing for no operation and for a frame the codec
drops (60_exceptions.md R249); no meaning for two operations at once (93_implementation_defined.md U1). -/
def perform (run : Instr → State → Result) (image : Image) (s : State) : Result :=
  match decode image with
  | .ok i => run i s
  | .error .noOperation => .next s
  | .error (.badFrame _) => .next s
  | .error .multiHot => .refused .concurrentOperations

/-- One step: the next request is presented to the block; with none pending no operation is presented and the block does
nothing (60_exceptions.md R269; log 8). -/
def present (run : Instr → State → Result) (s : State) : Result :=
  match s.pending with
  | [] => .next s
  | r :: rest => perform run r.image (s.latch r rest)

/-- The request that presents a word as the opcode table numbers it, at clock value 0 with a willing transport. -/
def tableRequest (nbits w : Nat) : Request := { image := tableImage nbits w }

end Sys2Proof.Machine
end

