-- ==== Sys2Proof/Machine/Operands.lean ====
section
/-! DEFINITION. The operands an instruction takes from the registers: the window of a buffer it moves (the one addressing
mode of 43_link_ops.md R229), the pacing condition of a consecutive frame, and the lengths it reports. -/

namespace Sys2Proof.Machine

/-- How many bytes the next transmitted consecutive frame carries: `min(7, send.size - send.offset)` (41_send.md R156). -/
def SendContext.chunkLength (c : SendContext) : Nat := min 7 (c.size.toNat - c.offset.toNat)

/-- How many bytes of an inbound consecutive frame are taken: `min(len(data), recv.size - recv.offset)`
(42_receive.md R190). -/
def RecvContext.takeLength (c : RecvContext) (data : List Byte) : Nat := min data.length (c.size.toNat - c.offset.toNat)

/-- How many bytes RECV copies: `min(recv.size, out_capacity)` (42_receive.md R200). -/
def RecvContext.drainLength (c : RecvContext) (outCapacity : BitVec 16) : Nat := min c.size.toNat outCapacity.toNat

/-- The condition under which POLL sends a consecutive frame (41_send.md R156 step (a), R157). -/
def SendContext.maySend (c : SendContext) (now : Time) : Bool :=
  decide (0 < c.bsCredit.toNat) && (decide (c.stMin = 0) || after now (c.timerSt + c.stMin.setWidth 32))

/-- `actual_length` of RECV: `recv.size` on the 16-bit output (30_encoding.md R111). -/
def RecvContext.actualLength (c : RecvContext) : BitVec 16 := c.size.setWidth 16

end Sys2Proof.Machine
end

