-- ==== Sys2Proof/Machine/FlowControl.lean ====
section
/-! DEFINITION. RX of a flow-control frame (41_send.md section 3) and the instructions FC.CTS, FC.WAIT, FC.OVFLW and
FC.RSVD. The receive context is never written here (00_scope.md R11). -/

namespace Sys2Proof.Machine

/-- Steps (a) and (b) of RX_FC: a flow-control frame outside a send is ignored (R167); within one it re-arms the timer
first, then does what its status says. -/
def takeFlowControl (act : SendContext → SendContext) (s : State) : Result :=
  if s.send.status ≠ .inProgress then .next s
  else .next (s.withSend (act (s.send.armBs s.cfg s.now)))

/-- Step (e): credit and separation time from the frame, wait count cleared (R164). -/
def SendContext.flowContinue (c : SendContext) (bs st : Byte) : SendContext :=
  { c with bsCredit := bs, stMin := stDecode st, waitCount := 0 }

/-- Step (d): the wait count, and the abort when it exceeds MAX_WFT (R165). -/
def SendContext.flowWait (c : SendContext) (maxWft : Nat) : SendContext :=
  if maxWft < (c.waitCount + 1).toNat then SendContext.abort { c with waitCount := c.waitCount + 1 } .wftOverrun
  else { c with waitCount := c.waitCount + 1 }

/-- Step (c): the peer cannot hold the message (R163). -/
def SendContext.flowOverflow (c : SendContext) : SendContext := c.abort .bufferOverflow

/-- RX_FC (41_send.md R162): the frame of any flow status. -/
def rxFlowControl (fs : Nibble) (bs st : Byte) (s : State) : Result :=
  takeFlowControl (fun c =>
    if fs = fsOverflow then c.flowOverflow
    else if fs = fsWait then c.flowWait s.cfg.maxWft
    else if fs = fsContinue then c.flowContinue bs st
    else c) s

/-- FC.CTS (41_send.md R164). -/
def execFcCts (bs st : Byte) (s : State) : Result := rxFlowControl fsContinue bs st s

/-- FC.WAIT (41_send.md R165). -/
def execFcWait (bs st : Byte) (s : State) : Result := rxFlowControl fsWait bs st s

/-- FC.OVFLW (41_send.md R163). -/
def execFcOvflw (bs st : Byte) (s : State) : Result := rxFlowControl fsOverflow bs st s

/-- FC.RSVD (30_encoding.md R99, 41_send.md R166). -/
def execFcRsvd (fs : Nibble) (bs st : Byte) (s : State) : Result := rxFlowControl fs bs st s

end Sys2Proof.Machine
end

