-- ==== Sys2Proof/Machine/Receive.lean ====
section
/-! DEFINITION. The receive-side state machine (42_receive.md): what RX does with a single, a first and a consecutive
frame, and the instructions SF, FF and CF. The send context is never written here (00_scope.md R11). -/

namespace Sys2Proof.Machine

/-- RX_SF (42_receive.md R181). -/
def rxSingle (data : List Byte) (s : State) : Result :=
  withBuffer (bufWrite s.cfg.maxMsg s.recv.buf 0 data) fun buf =>
    .next (s.withRecv { s.recv with
      result := arrivalResult s.recv.status
      buf := buf
      size := BitVec.ofNat 12 data.length
      offset := BitVec.ofNat 12 data.length
      status := .full })

/-- RX_FF of a first frame longer than MAX_MSG (42_receive.md R183 step (b), R184). -/
def rxFirstOverflow (s : State) : Result :=
  .next (s.withRecv (s.recv.abort .bufferOverflow)).transmitOverflow

/-- RX_FF of an acceptable first frame (42_receive.md R183 step (c), R185). -/
def rxFirst (ffDl : BitVec 12) (data : List Byte) (s : State) : Result :=
  withBuffer (bufWrite s.cfg.maxMsg s.recv.buf 0 data) fun buf =>
    .next (s.withRecv (RecvContext.armCr { s.recv with
      result := arrivalResult s.recv.status
      buf := buf
      size := ffDl
      offset := 6
      sn := 1
      bsCount := BitVec.ofNat 8 s.cfg.bsDefault
      status := .inProgress } s.cfg s.now)).transmitContinue

/-- Step (e) of RX_CF: the countdown of the block, and a further "continue" when it is used up (42_receive.md R194). -/
def rxWindow (s : State) : State :=
  if s.recv.bsCount - 1 = 0 then
    (s.withRecv { s.recv with bsCount := BitVec.ofNat 8 s.cfg.bsDefault }).transmitContinue
  else s.withRecv { s.recv with bsCount := s.recv.bsCount - 1 }

/-- Steps (d) and (e) of RX_CF: the message is complete, or the window advances (42_receive.md R193, R194). -/
def rxProgress (s : State) : State :=
  if s.recv.offset = s.recv.size then s.withRecv { s.recv with status := .full } else rxWindow s

/-- Step (c) of RX_CF: a frame with the expected sequence number (42_receive.md R192). -/
def rxMatching (data : List Byte) (s : State) : Result :=
  withBuffer (bufWrite s.cfg.maxMsg s.recv.buf s.recv.offset.toNat (data.take (s.recv.takeLength data))) fun buf =>
    .next (rxProgress (s.withRecv (RecvContext.armCr { s.recv with
      buf := buf
      offset := s.recv.offset + BitVec.ofNat 12 (s.recv.takeLength data)
      sn := s.recv.sn + 1
      result := .ok } s.cfg s.now)))

/-- RX_CF (42_receive.md R190). -/
def rxConsecutive (sn : Nibble) (data : List Byte) (s : State) : Result :=
  if s.recv.status ≠ .inProgress then .next (s.withRecv { s.recv with result := .unexpectedPdu })
  else if sn ≠ s.recv.sn then .next (s.withRecv (s.recv.abort .wrongSn))
  else rxMatching data s

/-- SF: RX of a single frame (42_receive.md R181, R182). -/
def execSf (data : List Byte) (s : State) : Result := rxSingle data s

/-- FF: RX of a first frame, an overflow when FF_DL exceeds MAX_MSG (40_codec.md R134, 42_receive.md R183). -/
def execFf (ffDl : BitVec 12) (data : List Byte) (s : State) : Result :=
  if s.cfg.maxMsg < ffDl.toNat then rxFirstOverflow s else rxFirst ffDl data s

/-- CF: RX of a consecutive frame (42_receive.md R190 to R196). -/
def execCf (sn : Nibble) (data : List Byte) (s : State) : Result := rxConsecutive sn data s

/-- RSVD.TYPE: a frame of unknown type is dropped, with no state change and no output (30_encoding.md R97). -/
def execRsvdType (_pci _low : Nibble) (_rest : List Byte) (s : State) : Result := .next s

end Sys2Proof.Machine
end

