-- ==== Sys2Proof/Machine/HostOps.lean ====
section
/-! DEFINITION. The host operations (43_link_ops.md): SEND (41_send.md section 1), POLL (41_send.md section 2,
42_receive.md section 4), RX, RECV (42_receive.md section 5) and INIT. -/

namespace Sys2Proof.Machine

/-! ### SEND -/

/-- Step (c) of SEND: the single-frame path (41_send.md R152, R155). -/
def sendSingle (length : Nat) (s : State) : Result :=
  withBytes (bufRead s.cfg.maxMsg s.send.buf 0 length) fun data =>
    let t := s.transmit (encodeSingle s.cfg.pad data)
    if s.txOk then .next ((t.withSend { s.send with status := .idle, result := .ok }).respond (.sent .retOk))
    else .next ((t.withSend s.send.txFailed).respond (.sent .retError))

/-- The send context once a first frame has been accepted (41_send.md R150 step (d), R153). -/
def SendContext.started (c : SendContext) (cfg : Config) (now : Time) : SendContext :=
  SendContext.armBs { c with
    offset := 6
    sn := 1
    bsCredit := 0
    stMin := 0
    waitCount := 0
    status := .inProgress
    result := .ok } cfg now

/-- Step (d) of SEND: the first-frame path (41_send.md R153, R155). -/
def sendFirst (length : Nat) (s : State) : Result :=
  withBytes (bufRead s.cfg.maxMsg s.send.buf 0 6) fun data =>
    let t := s.transmit (encodeFirst (BitVec.ofNat 12 length) data)
    if s.txOk then .next ((t.withSend (s.send.started s.cfg s.now)).respond (.sent .retOk))
    else .next ((t.withSend s.send.txFailed).respond (.sent .retError))

/-- Step (b) of SEND: the payload is copied before anything is transmitted (41_send.md R151). -/
def SendContext.copied (c : SendContext) (buf : Memory) (length : Nat) : SendContext :=
  { c with buf := buf, size := BitVec.ofNat 12 length, offset := 0 }

/-- SEND (41_send.md R150), accepted in every send status (R154). -/
def execSend (payload : List Byte) (s : State) : Result :=
  if s.cfg.maxMsg < payload.length then .next (s.respond (.sent .retOverflow))
  else
    withBuffer (bufWrite s.cfg.maxMsg s.send.buf 0 payload) fun buf =>
      let t := s.withSend (s.send.copied buf payload.length)
      if payload.length ≤ 7 then sendSingle payload.length t else sendFirst payload.length t

/-! ### POLL -/

/-- The send context once a consecutive frame of `n` bytes has been accepted (41_send.md R156 steps (c), (d)). -/
def SendContext.advanced (c : SendContext) (n : Nat) (cfg : Config) (now : Time) : SendContext :=
  SendContext.armBs { c with
    bsCredit := c.bsCredit - 1
    offset := c.offset + BitVec.ofNat 12 n
    sn := c.sn + 1
    timerSt := now
    status := if c.offset + BitVec.ofNat 12 n = c.size then .idle else c.status } cfg now

/-- Steps (b) to (e) of POLL_SEND: one consecutive frame (41_send.md R158, R159, R161). -/
def pollConsecutive (s : State) : Result :=
  withBytes (bufRead s.cfg.maxMsg s.send.buf s.send.offset.toNat s.send.chunkLength) fun data =>
    let t := s.transmit (encodeConsecutive s.cfg.pad s.send.sn data)
    if s.txOk then .next (t.withSend (s.send.advanced s.send.chunkLength s.cfg s.now))
    else .next (t.withSend s.send.txFailed)

/-- Step (f) of POLL_SEND: the flow-control timeout, on the registers as they then stand (41_send.md R161). -/
def pollTimeoutBs (s : State) : State :=
  if after s.now s.send.timerBs then s.withSend (s.send.abort .timeoutBs) else s

/-- POLL_RECV: the consecutive-frame timeout (42_receive.md R198). -/
def pollRecv (s : State) : State :=
  if s.recv.status = .inProgress ∧ after s.now s.recv.timerCr = true then s.withRecv (s.recv.abort .timeoutCr) else s

/-- The instruction goes on from the state another part of it left. -/
def andThen (r : Result) (k : State → State) : Result :=
  match r with
  | .next s => .next (k s)
  | .fault f => .fault f
  | .refused f => .refused f

/-- POLL_SEND (41_send.md R156). -/
def pollSend (s : State) : Result :=
  if s.send.status ≠ .inProgress then .next s
  else andThen (if s.send.maySend s.now then pollConsecutive s else .next s) pollTimeoutBs

/-- POLL (43_link_ops.md R223): the send half, then the receive half, on one clock sample. -/
def execPoll (s : State) : Result := andThen (pollSend s) pollRecv

/-! ### RX, RECV, INIT -/

/-- RX (43_link_ops.md R222): the decoder's result decides. -/
def execRx (raw : List Byte) (s : State) : Result :=
  match decodeFrame s.cfg.maxMsg raw with
  | .reject _ => .next s
  | .single data => rxSingle data s
  | .first ffDl data => rxFirst ffDl data s
  | .firstOverflow _ => rxFirstOverflow s
  | .consecutive sn data => rxConsecutive sn data s
  | .flowControl fs bs st => rxFlowControl fs bs st s

/-- RECV (42_receive.md R200). -/
def execRecv (outCapacity : BitVec 16) (s : State) : Result :=
  if s.recv.status ≠ .full then .next (s.respond (.received .retNoData 0 []))
  else
    withBytes (bufRead s.cfg.maxMsg s.recv.buf 0 (s.recv.drainLength outCapacity)) fun out =>
      .next ((s.withRecv { s.recv with status := .idle }).respond (.received .retOk s.recv.actualLength out))

/-- INIT (43_link_ops.md R221), accepted in any state. -/
def execInit (sendId receiveId : Ident) (s : State) : Result :=
  .next ((s.withSend (SendContext.afterInit sendId s.send.buf)).withRecv (RecvContext.afterInit receiveId s.recv.buf))

end Sys2Proof.Machine
end

