-- ==== Sys2Proof/Machine/Dispatch.lean ====
section
/-! DEFINITION. One arm per instruction: each calls the instruction's meaning. -/

namespace Sys2Proof.Machine

-- The frames of the opcode table (30_encoding.md), then the host operations (43_link_ops.md).
def exec (i : Instr) (s : State) : Host.Outcome State Fault Refusal :=
  match i with
  | .sf data => Sys2Proof.Machine.execSf data s
  | .ff ffDl data => Sys2Proof.Machine.execFf ffDl data s
  | .cf sn data => Sys2Proof.Machine.execCf sn data s
  | .fcCts bs st => Sys2Proof.Machine.execFcCts bs st s
  | .fcWait bs st => Sys2Proof.Machine.execFcWait bs st s
  | .fcOvflw bs st => Sys2Proof.Machine.execFcOvflw bs st s
  | .fcRsvd fs bs st => Sys2Proof.Machine.execFcRsvd fs bs st s
  | .rsvdType pci low rest => Sys2Proof.Machine.execRsvdType pci low rest s
  | .init sendId receiveId => Sys2Proof.Machine.execInit sendId receiveId s
  | .send payload => Sys2Proof.Machine.execSend payload s
  | .rx raw => Sys2Proof.Machine.execRx raw s
  | .poll => Sys2Proof.Machine.execPoll s
  | .recv outCapacity => Sys2Proof.Machine.execRecv outCapacity s

end Sys2Proof.Machine
end

