-- ==== Sys2Proof/Machine/Step.lean ====
section
/-! DEFINITION. The step of the machine: one request of the host is one step (00_scope.md R8). -/

namespace Sys2Proof.Machine

/-- One step. -/
def step (s : State) : Host.Outcome State Fault Refusal := present exec s

/-- `s` with the instruction of a table word as the request the next step is presented with. A program comes to run by
the host presenting its operations one by one (log 4). -/
def State.withFetchWord (s : State) (nbits w : Nat) : State := { s with pending := tableRequest nbits w :: s.pending }

end Sys2Proof.Machine
end

