-- ==== Sys2Proof/Safety.lean ====
section
/-! DEFINITION. What claims about the link are stated in: the invariants of 10_state.md section 5, the states a host can
bring the link to, the duties of the environment, the bytes of a buffer that are ever shown, and the segmentation of a
message. -/

namespace Sys2Proof.Machine

/-! ### Invariants (10_state.md section 5) -/

/-- A buffer in canonical form that lists no index at or above MAX_MSG (20_memory.md R60, R69). -/
structure Memory.Sound (cfg : Config) (m : Memory) : Prop where
  wf : m.wf
  below : ∀ c ∈ m, c.1 < cfg.maxMsg

/-- The send side between steps: R44, R48 (a) and (d), the ranges of R29 and R30, and the results of R42. -/
structure SendContext.Inv (cfg : Config) (c : SendContext) : Prop where
  offset_le_size : c.offset.toNat ≤ c.size.toNat
  size_le_maxMsg : c.size.toNat ≤ cfg.maxMsg
  size_ge : c.status = .inProgress → 8 ≤ c.size.toNat
  offset_ge : c.status = .inProgress → 6 ≤ c.offset.toNat
  offset_lt_size : c.status = .inProgress → c.offset.toNat < c.size.toNat
  /-- While in progress every consecutive frame sent so far carried 7 bytes. -/
  offset_whole : c.status = .inProgress → (c.offset.toNat - 6) % 7 = 0
  /-- R46, R48 (d): the next sequence number is one more than the frames sent, modulo 16. -/
  sn_counts : c.status = .inProgress → c.sn.toNat = (1 + (c.offset.toNat - 6) / 7) % 16
  stMin_le : c.stMin.toNat ≤ 127
  waitCount_le : c.waitCount.toNat ≤ cfg.maxWft + 1
  waitCount_tolerated : c.status = .inProgress → c.waitCount.toNat ≤ cfg.maxWft
  /-- R159: every event that writes another result also leaves INPROGRESS. -/
  result_inProgress : c.status = .inProgress → c.result = .ok
  result_mem : c.result ∈ [.ok, .bufferOverflow, .timeoutBs, .wftOverrun]
  buf_sound : c.buf.Sound cfg

/-- The receive side between steps: R44, R48 (b) and (c), and the results of R42. -/
structure RecvContext.Inv (cfg : Config) (c : RecvContext) : Prop where
  offset_le_size : c.offset.toNat ≤ c.size.toNat
  size_le_maxMsg : c.size.toNat ≤ cfg.maxMsg
  size_ge : c.status = .inProgress → 8 ≤ c.size.toNat
  offset_ge : c.status = .inProgress → 6 ≤ c.offset.toNat
  offset_lt_size : c.status = .inProgress → c.offset.toNat < c.size.toNat
  bsCount_ge : c.status = .inProgress → 1 ≤ c.bsCount.toNat
  bsCount_le : c.status = .inProgress → c.bsCount.toNat ≤ cfg.bsDefault
  full_whole : c.status = .full → c.offset = c.size
  result_mem : c.result ∈ [.ok, .bufferOverflow, .wrongSn, .timeoutCr, .unexpectedPdu]
  buf_sound : c.buf.Sound cfg

/-- The link between steps. -/
structure State.Inv (s : State) : Prop where
  send : s.send.Inv s.cfg
  recv : s.recv.Inv s.cfg

/-! ### The states a host can bring the link to -/

/-- The link of an instance after INIT, with any bytes in its buffers (93_implementation_defined.md U7). -/
def State.initial (cfg : Config) (sendId receiveId : Ident) (sendBuf recvBuf : Memory) : State :=
  { State.reset with
    cfg := cfg
    send := SendContext.afterInit sendId sendBuf
    recv := RecvContext.afterInit receiveId recvBuf }

/-- Reached from an INIT of some instance by steps on requests of the host's own choosing (R220: the host presents what
it likes, at any clock value and with any answer of the transport). -/
inductive Reachable : State → Prop where
  | initial (cfg : Config) (sendId receiveId : Ident) (sendBuf recvBuf : Memory)
      (hs : sendBuf.Sound cfg) (hr : recvBuf.Sound cfg) :
      Reachable (State.initial cfg sendId receiveId sendBuf recvBuf)
  | present {s : State} (h : Reachable s) (requests : List Request) : Reachable { s with pending := requests }
  | step {s t : State} (h : Reachable s) (ht : Machine.step s = .next t) : Reachable t

/-! ### Duties of the environment -/

/-- The host presents one operation at a time (70_reset_and_hazards.md R290). -/
abbrev Serialised (r : Request) : Prop := decode r.image ≠ .error .multiHot

/-- The clock duty of one wait (60_exceptions.md R265): between the arming of a timer of the given period and the step
that tests it, less than 2^31 - period ms have passed. -/
abbrev ClockDuty (armed now : Time) (period : Nat) : Prop := (now - armed).toNat < 2147483648 - period

/-! ### What a step leaves alone -/

/-- The configuration and the input ports are as they were. -/
structure State.SameInputs (s t : State) : Prop where
  cfg : t.cfg = s.cfg
  pending : t.pending = s.pending
  now : t.now = s.now
  txOk : t.txOk = s.txOk

/-- The state with the registers that no rule reads cleared: the two results (R42) and `recv.id` (R33). -/
def State.eraseUnread (s : State) : State :=
  (s.withSend { s.send with result := .ok }).withRecv { s.recv with result := .ok, id := 0 }

/-! ### Serving a sequence of requests -/

/-- An instruction executed once at each of the given clock values, the first one first. -/
def execAt (i : Instr) : List Time → State → Result
  | [], s => .next s
  | clock :: clocks, s =>
    match exec i { s with now := clock } with
    | .next t => execAt i clocks t
    | .fault f => .fault f
    | .refused f => .refused f

/-- The steps on a list of requests, presented one after the other. -/
def serve : List Request → State → Result
  | [], s => .next s
  | r :: rs, s =>
    match step { s with pending := [r] } with
    | .next t => serve rs t
    | .fault f => .fault f
    | .refused f => .refused f

/-! ### The bytes of a buffer that count (20_memory.md R74) -/

/-- Two send contexts that differ at most in bytes of the buffer outside the message in progress. -/
structure SendContext.Agrees (c d : SendContext) : Prop where
  registers : { c with buf := [] } = { d with buf := [] }
  shown : c.status = .inProgress → ∀ a < c.size.toNat, c.buf.get a = d.buf.get a

/-- Two receive contexts that differ at most in bytes of the buffer not received for the message in progress or held. -/
structure RecvContext.Agrees (c d : RecvContext) : Prop where
  registers : { c with buf := [] } = { d with buf := [] }
  shown : c.status ≠ .idle → ∀ a < c.offset.toNat, c.buf.get a = d.buf.get a

/-- Two states that differ at most in such bytes: the same registers, ports, response and transmit attempts. -/
structure State.Agrees (s t : State) : Prop where
  send : s.send.Agrees t.send
  recv : s.recv.Agrees t.recv
  rest : (s.withSend t.send).withRecv t.recv = t

/-! ### The segmentation of a message (41_send.md R169) -/

/-- How many consecutive frames a message of `length ≥ 8` bytes takes: `ceil((length - 6) / 7)`. -/
def consecutiveCount (length : Nat) : Nat := (length - 6 + 6) / 7

/-- The k-th consecutive frame of a message (k from 1): sequence number `k mod 16` and the next 7 bytes, or what remains. -/
def consecutiveFrame (padMode : Bool) (msg : List Byte) (k : Nat) : List Byte :=
  encodeConsecutive padMode (BitVec.ofNat 4 k) ((msg.drop (6 + 7 * (k - 1))).take 7)

/-- The frames of a message of 8 or more bytes: the first frame, then the consecutive frames. -/
def segments (padMode : Bool) (msg : List Byte) : List (List Byte) :=
  encodeFirst (BitVec.ofNat 12 msg.length) (msg.take 6) ::
    (List.range (consecutiveCount msg.length)).map fun k => consecutiveFrame padMode msg (k + 1)

/-- The "continue" attempts of a reception with configuration `cfg` under identifier `id` (42_receive.md R185, R194): one in
the request at position 0, the first frame, and one at each multiple of the block size, the ends of the blocks; `requests`
are those of the reception but its last. -/
def continueAttempts (cfg : Config) (id : Ident) (requests : List Request) : List TxAttempt :=
  (requests.zipIdx.filter fun p => decide (p.2 % cfg.bsDefault = 0)).map fun p =>
    { id := id
      frame := encodeFlowControl cfg.pad fsContinue (BitVec.ofNat 8 cfg.bsDefault) cfg.stDefault
      ok := p.1.txOk }

end Sys2Proof.Machine
end

