-- ==== Sys2Proof/Certificates/Slice0/Obligations.lean ====
section
/-! DEFINITION. The statements about the link, each from the rules of spec/ its docstring names. Where a rule is the
spec's own decision (D<n> of 92_eei_decisions.md) or a choice of the model (log <n>), the docstring says so. -/

open Sys2Proof Sys2Proof.Machine

/-! ### Encoding -/

/-- Decoding an image of a well-formed instruction gives it back, every operand at every value it can have. -/
def Obligations.DecodeEncodeRoundTrip : Prop :=
  ∀ i : Instr, i.wellFormed = true → decode (encode i) = .ok i

/-- The decoder never gives an instruction whose operands are out of range. -/
def Obligations.DecoderYieldsWellFormed : Prop :=
  ∀ (im : Image) (i : Instr), decode im = .ok i → i.wellFormed = true

/-- Words of the spec, one of each instruction, written out from 30_encoding.md R80 to R83, R94, R97, R99, R110. The flow
status codes 0, 1 and 2 in them are PRESUMED (log 11; G1, decision D13). -/
def Obligations.SpecWordsDecode : Prop :=
  decode (.frame [0x03, 0x11, 0x22, 0x33]) = .ok (.sf [0x11, 0x22, 0x33]) ∧
  decode (.frame [0x1F, 0xFE, 1, 2, 3, 4, 5, 6]) = .ok (.ff 4094 [1, 2, 3, 4, 5, 6]) ∧
  decode (.frame [0x21, 0xA6, 0xA7, 0xA8, 0xA9]) = .ok (.cf 1 [0xA6, 0xA7, 0xA8, 0xA9]) ∧
  decode (.frame [0x30, 0x08, 0x0A]) = .ok (.fcCts 0x08 0x0A) ∧
  decode (.frame [0x31, 0x00, 0x00]) = .ok (.fcWait 0 0) ∧
  decode (.frame [0x32, 0x00, 0x00]) = .ok (.fcOvflw 0 0) ∧
  decode (.frame [0x3F, 0x01, 0x02]) = .ok (.fcRsvd 15 1 2) ∧
  decode (.frame [0x4A, 0x00]) = .ok (.rsvdType 4 10 [0]) ∧
  decode (.command { op := 0b00001, sendId := 0x7E0, receiveId := 0x7E8 }) = .ok (.init 0x7E0 0x7E8) ∧
  decode (.command { op := 0b00010, payload := [0xDE, 0xAD] }) = .ok (.send [0xDE, 0xAD]) ∧
  decode (.command { op := 0b00100, raw := [0x40, 0x00] }) = .ok (.rx [0x40, 0x00]) ∧
  decode (.command { op := 0b01000 }) = .ok .poll ∧
  decode (.command { op := 0b10000, outCapacity := 64 }) = .ok (.recv 64)

/-- The verdict table of 40_codec.md R138, row by row, FF_DL computed as `256 * f[0][3:0] + f[1]` (30_encoding.md R87).
The rows that reject on a length are decisions D14 and D15. -/
def Obligations.FrameDecoderVerdicts : Prop :=
  ∀ (maxMsg : Nat) (raw : List Byte),
    (raw.length < 2 → decodeFrame maxMsg raw = .reject .tooShort) ∧
    (8 < raw.length → decodeFrame maxMsg raw = .reject .tooLong) ∧
    ∀ (b0 : Byte) (rest : List Byte), raw = b0 :: rest → 2 ≤ raw.length → raw.length ≤ 8 →
      (b0.toNat / 16 = 0 → raw.length - 1 < b0.toNat % 16 → decodeFrame maxMsg raw = .reject .singleLength) ∧
      (b0.toNat / 16 = 0 → b0.toNat % 16 ≤ raw.length - 1 →
        decodeFrame maxMsg raw = .single (rest.take (b0.toNat % 16))) ∧
      (b0.toNat / 16 = 1 → raw.length ≠ 8 → decodeFrame maxMsg raw = .reject .firstNotEightBytes) ∧
      (b0.toNat / 16 = 1 → raw.length = 8 → ∀ (b1 : Byte) (data : List Byte), rest = b1 :: data →
        ∀ n : BitVec 12, n.toNat = 256 * (b0.toNat % 16) + b1.toNat →
          (n.toNat < 8 → decodeFrame maxMsg raw = .reject .firstTotalBelowEight) ∧
          (8 ≤ n.toNat → n.toNat ≤ maxMsg → decodeFrame maxMsg raw = .first n data) ∧
          (8 ≤ n.toNat → maxMsg < n.toNat → decodeFrame maxMsg raw = .firstOverflow n)) ∧
      (b0.toNat / 16 = 2 → ∀ sn : Nibble, sn.toNat = b0.toNat % 16 →
        decodeFrame maxMsg raw = .consecutive sn rest) ∧
      (b0.toNat / 16 = 3 → raw.length = 2 → decodeFrame maxMsg raw = .reject .flowControlLength) ∧
      (b0.toNat / 16 = 3 → ∀ (bs st : Byte) (more : List Byte), rest = bs :: st :: more →
        ∀ fs : Nibble, fs.toNat = b0.toNat % 16 → decodeFrame maxMsg raw = .flowControl fs bs st) ∧
      (4 ≤ b0.toNat / 16 → decodeFrame maxMsg raw = .reject .unknownType)

/-- 40_codec.md R129: the wire code of a separation time in milliseconds, and what encoding then decoding gives. -/
def Obligations.SeparationTimeDecodes : Prop :=
  (∀ code : Byte,
    (code.toNat ≤ 0x7F → (stDecode code).toNat = code.toNat) ∧
    (0xF1 ≤ code.toNat → code.toNat ≤ 0xF9 → (stDecode code).toNat = 1) ∧
    (0x80 ≤ code.toNat → code.toNat ≤ 0xF0 → (stDecode code).toNat = 0) ∧
    (0xFA ≤ code.toNat → (stDecode code).toNat = 0) ∧
    (stDecode code).toNat ≤ 127) ∧
  ∀ ms : Nat, (stDecode (stEncode ms)).toNat = min ms 127

/-- 40_codec.md R128: milliseconds to wire code, and no flow-control frame of the block carries a code above 0x7F. -/
def Obligations.SeparationTimeEncodes : Prop :=
  (∀ ms : Nat, (ms ≤ 127 → (stEncode ms).toNat = ms) ∧ (127 < ms → (stEncode ms).toNat = 127)) ∧
  ∀ (padMode : Bool) (fs : Nibble) (bs : Byte) (ms : Nat),
    ∃ code : Byte, (encodeFlowControl padMode fs bs ms)[2]? = some code ∧ code.toNat ≤ 0x7F

/-- 40_codec.md R139 (derived there): the round trips of the four encoders through the decoder. -/
def Obligations.CodecRoundTrips : Prop :=
  ∀ (maxMsg : Nat) (padMode : Bool),
    (∀ p : List Byte, p.length ≤ 7 →
      decodeFrame maxMsg (encodeSingle padMode p) =
        if padMode = false ∧ p = [] then .reject .tooShort else .single p) ∧
    (∀ (n : BitVec 12) (d : List Byte), 8 ≤ n.toNat → d.length = 6 →
      decodeFrame maxMsg (encodeFirst n d) = if n.toNat ≤ maxMsg then .first n d else .firstOverflow n) ∧
    (∀ (sn : Nibble) (c : List Byte), 1 ≤ c.length → c.length ≤ 7 →
      decodeFrame maxMsg (encodeConsecutive padMode sn c) =
        .consecutive sn (if padMode then c ++ List.replicate (7 - c.length) 0 else c)) ∧
    (∀ (fs : Nibble) (bs : Byte) (ms : Nat), ∃ st : Byte,
      decodeFrame maxMsg (encodeFlowControl padMode fs bs ms) = .flowControl fs bs st ∧
        (stDecode st).toNat = min ms 127)

/-! ### Buffers -/

/-- 20_memory.md R62, R63: BufRead and BufWrite answer inside the buffer only; a write puts each byte at its index and
changes no other, a read gives the bytes in increasing index order. -/
def Obligations.BufferAccessesTouchOnlyTheirWindow : Prop :=
  ∀ (cap : Nat) (m : Memory) (i : Nat),
    (∀ bytes : List Byte, i + bytes.length ≤ cap → ∃ m', bufWrite cap m i bytes = some m' ∧
      (∀ k (h : k < bytes.length), m'.get (i + k) = bytes[k]) ∧
      (∀ a, a < i ∨ i + bytes.length ≤ a → m'.get a = m.get a) ∧
      (m.wf → m'.wf)) ∧
    (∀ bytes : List Byte, cap < i + bytes.length → bufWrite cap m i bytes = none) ∧
    (∀ n, i + n ≤ cap → ∃ out, bufRead cap m i n = some out ∧ out.length = n ∧
      ∀ k, k < n → out[k]? = some (m.get (i + k))) ∧
    (∀ n, cap < i + n → bufRead cap m i n = none)

/-! ### INIT and reset -/

/-- 43_link_ops.md R221, 70_reset_and_hazards.md R280: INIT completes in every state, sets every register (the values
other than the statuses are decision D31) and leaves both buffers, the configuration and the ports alone. -/
def Obligations.InitResetsEveryRegister : Prop :=
  ∀ (s : State) (a b : Ident), ∃ t, exec (.init a b) s = .next t ∧
    t.send.id = a ∧ t.send.size = 0 ∧ t.send.offset = 0 ∧ t.send.sn = 0 ∧ t.send.bsCredit = 0 ∧ t.send.stMin = 0 ∧
    t.send.waitCount = 0 ∧ t.send.timerBs = 0 ∧ t.send.timerSt = 0 ∧ t.send.status = .idle ∧ t.send.result = .ok ∧
    t.recv.id = b ∧ t.recv.size = 0 ∧ t.recv.offset = 0 ∧ t.recv.sn = 0 ∧ t.recv.bsCount = 0 ∧ t.recv.timerCr = 0 ∧
    t.recv.status = .idle ∧ t.recv.result = .ok ∧
    (∀ x, t.send.buf.get x = s.send.buf.get x) ∧ (∀ x, t.recv.buf.get x = s.recv.buf.get x) ∧
    s.SameInputs t ∧ t.response = s.response ∧ t.trace = s.trace

/-- `State.reset` is a state after INIT, the one with identifiers 0 and 0 (the model's choice, log 2), and the host reads
IDLE and OK of both sides (10_state.md R40 to R42; the codes are decision D12, OK after INIT is D31). -/
def Obligations.ResetIsAfterInit : Prop :=
  exec (.init 0 0) State.reset = .next State.reset ∧ readBack State.reset = (0, 0, 0, 0)

/-! ### SEND -/

/-- 41_send.md R151 (order of the test: D22): a payload longer than MAX_MSG returns RET_OVERFLOW and changes nothing. -/
def Obligations.SendOverLengthChangesNothing : Prop :=
  ∀ (s : State) (p : List Byte), s.cfg.maxMsg < p.length →
    exec (.send p) s = .next { s with response := .sent .retOverflow }

/-- 41_send.md R152, R155 (D19 to D21): up to 7 bytes go out in one single frame, whatever the send status was; what is
left behind by an accepted and by a refused frame, and everything else unchanged. -/
def Obligations.SendShortMessage : Prop :=
  ∀ (s : State) (p : List Byte), p.length ≤ 7 → ∃ t, exec (.send p) s = .next t ∧
    t.trace = s.trace ++ [{ id := s.send.id, frame := encodeSingle s.cfg.pad p, ok := s.txOk }] ∧
    t.send.size.toNat = p.length ∧ t.send.offset = 0 ∧
    (s.txOk = true → t.send.status = .idle ∧ t.send.result = .ok ∧ t.response = .sent .retOk) ∧
    (s.txOk = false → t.send.status = .error ∧ t.send.result = s.send.result ∧ t.response = .sent .retError) ∧
    t.send.id = s.send.id ∧ t.send.sn = s.send.sn ∧ t.send.bsCredit = s.send.bsCredit ∧ t.send.stMin = s.send.stMin ∧
    t.send.waitCount = s.send.waitCount ∧ t.send.timerBs = s.send.timerBs ∧ t.send.timerSt = s.send.timerSt ∧
    t.recv = s.recv ∧ s.SameInputs t

/-- 41_send.md R153, R155 (D20, D21): 8 to MAX_MSG bytes start with a first frame; the registers after an accepted and
after a refused one. `send.timer_st` is not written. -/
def Obligations.SendLongMessage : Prop :=
  ∀ (s : State) (p : List Byte), 8 ≤ p.length → p.length ≤ s.cfg.maxMsg → ∃ t, exec (.send p) s = .next t ∧
    t.trace = s.trace ++
      [{ id := s.send.id, frame := encodeFirst (BitVec.ofNat 12 p.length) (p.take 6), ok := s.txOk }] ∧
    t.send.size.toNat = p.length ∧ t.send.id = s.send.id ∧ t.send.timerSt = s.send.timerSt ∧
    (s.txOk = true → t.send.offset = 6 ∧ t.send.sn = 1 ∧ t.send.bsCredit = 0 ∧ t.send.stMin = 0 ∧
      t.send.waitCount = 0 ∧ t.send.timerBs = s.now + BitVec.ofNat 32 s.cfg.nBs ∧ t.send.status = .inProgress ∧
      t.send.result = .ok ∧ t.response = .sent .retOk) ∧
    (s.txOk = false → t.send.offset = 0 ∧ t.send.sn = s.send.sn ∧ t.send.bsCredit = s.send.bsCredit ∧
      t.send.stMin = s.send.stMin ∧ t.send.waitCount = s.send.waitCount ∧ t.send.timerBs = s.send.timerBs ∧
      t.send.status = .error ∧ t.send.result = s.send.result ∧ t.response = .sent .retError) ∧
    t.recv = s.recv ∧ s.SameInputs t

/-- 41_send.md R151, 20_memory.md R73: an accepted SEND copies the payload to the start of the send buffer, byte for byte,
and no other byte of either buffer changes. -/
def Obligations.SendStoresThePayload : Prop :=
  ∀ (s : State) (p : List Byte), p.length ≤ s.cfg.maxMsg → ∃ t, exec (.send p) s = .next t ∧
    (∀ a (h : a < p.length), t.send.buf.get a = p[a]) ∧
    (∀ a, p.length ≤ a → t.send.buf.get a = s.send.buf.get a) ∧
    (∀ a, t.recv.buf.get a = s.recv.buf.get a)

/-! ### POLL -/

/-- 41_send.md R158, R159: with credit left and the pacing open (strictly later: decision D3), an accepted POLL sends one
consecutive frame of up to 7 bytes and advances the send registers; at the end of the message the status becomes IDLE. The
frame goes out although the old flow-control deadline may have passed, and re-arming it keeps the send out of ERROR
(decision D29). What POLL does to the receive side is `PollReceiveHalf`. -/
def Obligations.PollSendsOneConsecutiveFrame : Prop :=
  ∀ s : State, s.Inv → s.send.status = .inProgress → 0 < s.send.bsCredit.toNat →
    (s.send.stMin = 0 ∨ after s.now (s.send.timerSt + s.send.stMin.setWidth 32) = true) → s.txOk = true →
    ∃ t, exec .poll s = .next t ∧
      1 ≤ min 7 (s.send.size.toNat - s.send.offset.toNat) ∧
      t.trace = s.trace ++ [{ id := s.send.id,
                              frame := encodeConsecutive s.cfg.pad s.send.sn (s.send.buf.bytes s.send.offset.toNat
                                (min 7 (s.send.size.toNat - s.send.offset.toNat))),
                              ok := true }] ∧
      t.send.bsCredit.toNat + 1 = s.send.bsCredit.toNat ∧
      t.send.offset.toNat = s.send.offset.toNat + min 7 (s.send.size.toNat - s.send.offset.toNat) ∧
      t.send.sn.toNat = (s.send.sn.toNat + 1) % 16 ∧
      t.send.timerBs = s.now + BitVec.ofNat 32 s.cfg.nBs ∧ t.send.timerSt = s.now ∧
      (t.send.offset = t.send.size → t.send.status = .idle) ∧
      (t.send.offset ≠ t.send.size → t.send.status = .inProgress) ∧ t.send.result = .ok ∧
      t.send.id = s.send.id ∧ t.send.size = s.send.size ∧ t.send.stMin = s.send.stMin ∧
      t.send.waitCount = s.send.waitCount ∧ (∀ a, t.send.buf.get a = s.send.buf.get a) ∧
      t.response = s.response ∧ s.SameInputs t

/-- 41_send.md R161 (D3, D20, D29): when the transport refuses the consecutive frame the transfer ends in ERROR, with the
result kept unless the deadline has passed too, and every other send register kept. -/
def Obligations.PollTransmitFailureIsFatal : Prop :=
  ∀ s : State, s.Inv → s.send.status = .inProgress → 0 < s.send.bsCredit.toNat →
    (s.send.stMin = 0 ∨ after s.now (s.send.timerSt + s.send.stMin.setWidth 32) = true) → s.txOk = false →
    ∃ t, exec .poll s = .next t ∧
      t.trace = s.trace ++ [{ id := s.send.id,
                              frame := encodeConsecutive s.cfg.pad s.send.sn (s.send.buf.bytes s.send.offset.toNat
                                (min 7 (s.send.size.toNat - s.send.offset.toNat))),
                              ok := false }] ∧
      t.send = { s.send with
        status := .error
        result := if after s.now s.send.timerBs then .timeoutBs else s.send.result } ∧
      t.response = s.response ∧ s.SameInputs t

/-- 41_send.md R156, R160, R161 (strictness: D3): without credit, or with the pacing closed, POLL sends nothing; the transfer ends in ERROR
with TIMEOUT_BS exactly when the flow-control deadline has passed, and else the send registers stay as they are. -/
def Obligations.PollWithoutCreditOnlyTimesOut : Prop :=
  ∀ s : State, s.send.status = .inProgress →
    (s.send.bsCredit = 0 ∨
      (s.send.stMin ≠ 0 ∧ after s.now (s.send.timerSt + s.send.stMin.setWidth 32) = false)) →
    ∃ t, exec .poll s = .next t ∧ t.trace = s.trace ∧ t.response = s.response ∧ s.SameInputs t ∧
      t.send = if after s.now s.send.timerBs then { s.send with status := .error, result := .timeoutBs } else s.send

/-- 42_receive.md R198: the receive half of POLL. It acts only while a reception is in progress whose deadline has
passed; it transmits nothing and a FULL message never times out. -/
def Obligations.PollReceiveHalf : Prop :=
  ∀ s : State, s.Inv → ∃ t, exec .poll s = .next t ∧
    (s.recv.status = .inProgress → after s.now s.recv.timerCr = true →
      t.recv = { s.recv with status := .idle, result := .timeoutCr }) ∧
    (s.recv.status ≠ .inProgress ∨ after s.now s.recv.timerCr = false → t.recv = s.recv) ∧
    (s.send.status ≠ .inProgress → t.send = s.send ∧ t.trace = s.trace) ∧ t.response = s.response ∧ s.SameInputs t

/-- 43_link_ops.md R223: with neither side in progress POLL does nothing at all. -/
def Obligations.PollOutsideTransfersDoesNothing : Prop :=
  ∀ s : State, s.send.status ≠ .inProgress → s.recv.status ≠ .inProgress → exec .poll s = .next s

/-! ### Flow-control frames -/

/-- 41_send.md R164: a "continue" within a send overwrites the credit and the separation time, clears the wait count and
re-arms the flow-control timer; nothing else changes. -/
def Obligations.ContinueLoadsCreditAndPacing : Prop :=
  ∀ (s : State) (bs st : Byte), s.send.status = .inProgress →
    exec (.fcCts bs st) s = .next { s with send := { s.send with
      bsCredit := bs
      stMin := stDecode st
      waitCount := 0
      timerBs := s.now + BitVec.ofNat 32 s.cfg.nBs } }

/-- 41_send.md R165: one "wait" within a send re-arms the timer and counts; it aborts the send with WFT_OVERRUN exactly
when the count exceeds MAX_WFT, and changes nothing else. -/
def Obligations.WaitFrameCountsAndRearms : Prop :=
  ∀ (s : State) (bs st : Byte), s.Inv → s.send.status = .inProgress →
    ∃ count : BitVec 8, count.toNat = s.send.waitCount.toNat + 1 ∧
      exec (.fcWait bs st) s = .next { s with send := { s.send with
        waitCount := count
        timerBs := s.now + BitVec.ofNat 32 s.cfg.nBs
        status := if s.cfg.maxWft < count.toNat then .error else .inProgress
        result := if s.cfg.maxWft < count.toNat then .wftOverrun else s.send.result } }

/-- 41_send.md R165: of consecutive "wait" frames, at any clock values, MAX_WFT are tolerated, each re-arming the timer and
changing neither credit nor separation time, and the next one aborts the send with WFT_OVERRUN; whatever the count is, a
"continue" and an accepted first frame start it again. -/
def Obligations.WaitFramesAreToleratedUpToTheMaximum : Prop :=
  (∀ (s : State) (bs st : Byte) (earlier : List Time) (last : Time),
    s.send.status = .inProgress → s.send.waitCount = 0 →
    (earlier.length < s.cfg.maxWft →
      execAt (.fcWait bs st) (earlier ++ [last]) s = .next { s with now := last, send := { s.send with
        waitCount := BitVec.ofNat 8 (earlier.length + 1)
        timerBs := last + BitVec.ofNat 32 s.cfg.nBs } }) ∧
    (earlier.length = s.cfg.maxWft →
      execAt (.fcWait bs st) (earlier ++ [last]) s = .next { s with now := last, send := { s.send with
        waitCount := BitVec.ofNat 8 (earlier.length + 1)
        timerBs := last + BitVec.ofNat 32 s.cfg.nBs
        status := .error
        result := .wftOverrun } })) ∧
  (∀ (s : State) (bs st : Byte), s.send.status = .inProgress →
    ∃ t, exec (.fcCts bs st) s = .next t ∧ t.send.waitCount = 0) ∧
  ∀ (s : State) (p : List Byte), 8 ≤ p.length → p.length ≤ s.cfg.maxMsg → s.txOk = true →
    ∃ t, exec (.send p) s = .next t ∧ t.send.waitCount = 0

/-- 41_send.md R163: an "overflow" within a send re-arms the timer and ends the send in ERROR with BUFFER_OVERFLOW; no
later POLL, at any clock value, looks at that timer. -/
def Obligations.OverflowFrameAbortsTheSend : Prop :=
  ∀ (s : State) (bs st : Byte), s.send.status = .inProgress →
    ∃ t, exec (.fcOvflw bs st) s = .next t ∧
      t = { s with send := { s.send with
        timerBs := s.now + BitVec.ofNat 32 s.cfg.nBs
        status := .error
        result := .bufferOverflow } } ∧
      ∀ clock : Time, ∃ u, exec .poll { t with now := clock } = .next u ∧ u.send = t.send ∧ u.trace = t.trace

/-- 30_encoding.md R99, 41_send.md R166 (decision D17): a flow status the document does not name only re-arms the timer. -/
def Obligations.ReservedFlowStatusOnlyRearms : Prop :=
  ∀ (s : State) (fs : Nibble) (bs st : Byte), 3 ≤ fs.toNat → s.send.status = .inProgress →
    exec (.fcRsvd fs bs st) s = .next { s with send := { s.send with
      timerBs := s.now + BitVec.ofNat 32 s.cfg.nBs } }

/-- 41_send.md R167: a flow-control frame of any status that arrives outside a send changes nothing. -/
def Obligations.FlowControlOutsideASendIsIgnored : Prop :=
  ∀ (s : State) (fs : Nibble) (bs st : Byte), s.send.status ≠ .inProgress →
    exec (.fcCts bs st) s = .next s ∧ exec (.fcWait bs st) s = .next s ∧ exec (.fcOvflw bs st) s = .next s ∧
      exec (.fcRsvd fs bs st) s = .next s

/-! ### Frames of the receive side -/

/-- 42_receive.md R181, R182 (D23 to D25): a single frame is accepted in every status, replaces what the receive buffer
held from index 0 and is complete at once; no frame is sent and the send side is untouched. -/
def Obligations.SingleFrameIsAlwaysAccepted : Prop :=
  ∀ (s : State) (d : List Byte), d.length ≤ 7 → ∃ t, exec (.sf d) s = .next t ∧
    t.recv.status = .full ∧ t.recv.size.toNat = d.length ∧ t.recv.offset = t.recv.size ∧
    (s.recv.status = .inProgress → t.recv.result = .unexpectedPdu) ∧
    (s.recv.status ≠ .inProgress → t.recv.result = .ok) ∧
    (∀ a (h : a < d.length), t.recv.buf.get a = d[a]) ∧
    (∀ a, d.length ≤ a → t.recv.buf.get a = s.recv.buf.get a) ∧
    t.recv.id = s.recv.id ∧ t.recv.sn = s.recv.sn ∧ t.recv.bsCount = s.recv.bsCount ∧ t.recv.timerCr = s.recv.timerCr ∧
    t.send = s.send ∧ t.response = s.response ∧ t.trace = s.trace ∧ s.SameInputs t

/-- 42_receive.md R183 step (c), R185 to R187 (D23, D25, D26, D27): a first frame that fits starts a reception in every
status, and one "continue" frame goes out whatever the transport answers. Its flow status 0 is PRESUMED (log 11; D13). -/
def Obligations.FirstFrameStartsAReception : Prop :=
  ∀ (s : State) (n : BitVec 12) (d : List Byte), d.length = 6 → n.toNat ≤ s.cfg.maxMsg →
    ∃ t, exec (.ff n d) s = .next t ∧
      t.recv.status = .inProgress ∧ t.recv.size = n ∧ t.recv.offset = 6 ∧ t.recv.sn = 1 ∧
      t.recv.bsCount.toNat = s.cfg.bsDefault ∧ t.recv.timerCr = s.now + BitVec.ofNat 32 s.cfg.nCr ∧
      (s.recv.status = .inProgress → t.recv.result = .unexpectedPdu) ∧
      (s.recv.status ≠ .inProgress → t.recv.result = .ok) ∧
      (∀ a (h : a < d.length), t.recv.buf.get a = d[a]) ∧
      (∀ a, 6 ≤ a → t.recv.buf.get a = s.recv.buf.get a) ∧
      t.trace = s.trace ++ [{ id := s.send.id,
                              frame := encodeFlowControl s.cfg.pad 0 (BitVec.ofNat 8 s.cfg.bsDefault) s.cfg.stDefault,
                              ok := s.txOk }] ∧
      t.recv.id = s.recv.id ∧ t.send = s.send ∧ t.response = s.response ∧ s.SameInputs t

/-- 42_receive.md R183 step (b), R184, R187 (D25, D27): a first frame longer than MAX_MSG sends exactly one overflow frame
and leaves the receive side IDLE with BUFFER_OVERFLOW, every other receive register and the buffer as they were. The flow
status 2 of the frame is PRESUMED (log 11; D13). -/
def Obligations.OversizeFirstFrameIsRefused : Prop :=
  ∀ (s : State) (n : BitVec 12) (d : List Byte), s.cfg.maxMsg < n.toNat →
    exec (.ff n d) s = .next { s with
      recv := { s.recv with status := .idle, result := .bufferOverflow }
      trace := s.trace ++ [{ id := s.send.id, frame := encodeFlowControl s.cfg.pad 2 0 0, ok := s.txOk }] }

/-- 42_receive.md R191: a consecutive frame outside a reception records UNEXPECTED_PDU and is otherwise ignored. -/
def Obligations.ConsecutiveFrameOutsideAReception : Prop :=
  ∀ (s : State) (sn : Nibble) (d : List Byte), s.recv.status ≠ .inProgress →
    exec (.cf sn d) s = .next { s with recv := { s.recv with result := .unexpectedPdu } }

/-- 42_receive.md R196, R200 (D30 for the length 0 that RECV reports): a consecutive frame with another sequence number than expected aborts the reception; nothing else
is written, no frame is sent, no byte is handed out by a following RECV, and a later consecutive frame, even the right
one, only records UNEXPECTED_PDU. -/
def Obligations.WrongSequenceNumberAbortsTheReception : Prop :=
  ∀ (s : State) (sn : Nibble) (d : List Byte), s.recv.status = .inProgress → sn ≠ s.recv.sn →
    ∃ t, exec (.cf sn d) s = .next t ∧
      t = { s with recv := { s.recv with status := .idle, result := .wrongSn } } ∧
      (∀ cap, exec (.recv cap) t = .next { t with response := .received .retNoData 0 [] }) ∧
      ∀ sn' d', exec (.cf sn' d') t = .next { t with recv := { t.recv with result := .unexpectedPdu } }

/-- 42_receive.md R192 to R195 (D16, D23, D27): a consecutive frame with the expected sequence number stores its bytes,
clamped to what the message still needs; at the end of the message the status becomes FULL, else the block countdown
advances, and when it is used up it is reloaded and one "continue" goes out. Its flow status 0 is PRESUMED (log 11; D13). -/
def Obligations.ExpectedConsecutiveFrameAdvances : Prop :=
  ∀ (s : State) (d : List Byte), s.Inv → s.recv.status = .inProgress → 1 ≤ d.length → d.length ≤ 7 →
    ∃ t, exec (.cf s.recv.sn d) s = .next t ∧
      t.recv.offset.toNat = s.recv.offset.toNat + min d.length (s.recv.size.toNat - s.recv.offset.toNat) ∧
      t.recv.sn.toNat = (s.recv.sn.toNat + 1) % 16 ∧
      t.recv.timerCr = s.now + BitVec.ofNat 32 s.cfg.nCr ∧ t.recv.result = .ok ∧
      (∀ k (h : k < d.length), k < s.recv.size.toNat - s.recv.offset.toNat →
        t.recv.buf.get (s.recv.offset.toNat + k) = d[k]) ∧
      (∀ a, a < s.recv.offset.toNat ∨
          s.recv.offset.toNat + min d.length (s.recv.size.toNat - s.recv.offset.toNat) ≤ a →
        t.recv.buf.get a = s.recv.buf.get a) ∧
      (t.recv.offset = t.recv.size →
        t.recv.status = .full ∧ t.recv.bsCount = s.recv.bsCount ∧ t.trace = s.trace) ∧
      (t.recv.offset ≠ t.recv.size → t.recv.status = .inProgress ∧
        (1 < s.recv.bsCount.toNat → t.recv.bsCount.toNat + 1 = s.recv.bsCount.toNat ∧ t.trace = s.trace) ∧
        (s.recv.bsCount.toNat = 1 → t.recv.bsCount.toNat = s.cfg.bsDefault ∧
          t.trace = s.trace ++
            [{ id := s.send.id,
               frame := encodeFlowControl s.cfg.pad 0 (BitVec.ofNat 8 s.cfg.bsDefault) s.cfg.stDefault,
               ok := s.txOk }])) ∧
      t.recv.size = s.recv.size ∧ t.recv.id = s.recv.id ∧ t.send = s.send ∧ t.response = s.response ∧ s.SameInputs t

/-! ### RX -/

/-- 43_link_ops.md R222: RX does what the decoded frame's own instruction does, and nothing where the decoder gives none. -/
def Obligations.RxRunsTheDecodedFrame : Prop :=
  ∀ (s : State) (raw : List Byte),
    (∀ i, decode (.frame raw) = .ok i → exec (.rx raw) s = exec i s) ∧
    (∀ why, decode (.frame raw) = .error why → exec (.rx raw) s = .next s)

/-- 30_encoding.md R97, R98: a frame of PCI type 4 to 15, and a frame of fewer than 2 or more than 8 bytes whatever they
are, is dropped with no state change and no output. -/
def Obligations.MalformedFramesAreDropped : Prop :=
  (∀ (s : State) (b0 : Byte) (rest : List Byte), 4 ≤ b0.toNat / 16 → exec (.rx (b0 :: rest)) s = .next s) ∧
  (∀ (s : State) (pci low : Nibble) (rest : List Byte), exec (.rsvdType pci low rest) s = .next s) ∧
  ∀ (s : State) (raw : List Byte), raw.length < 2 ∨ 8 < raw.length → exec (.rx raw) s = .next s

/-- 43_link_ops.md R222: RX completes on every byte array in every state of the invariant, and returns nothing. -/
def Obligations.RxAlwaysCompletes : Prop :=
  ∀ (s : State) (raw : List Byte), s.Inv → ∃ t, exec (.rx raw) s = .next t ∧ t.response = s.response

/-! ### RECV -/

/-- 42_receive.md R200, R201 (D30 for the reported length): RECV of a held message returns RET_OK, the length of the
message and its first `min(recv.size, out_capacity)` bytes, and leaves the receive side IDLE; nothing else changes. -/
def Obligations.RecvDrainsAHeldMessage : Prop :=
  ∀ (s : State) (cap : BitVec 16), s.Inv → s.recv.status = .full →
    ∃ (len : BitVec 16) (out : List Byte),
      exec (.recv cap) s = .next { s with
        recv := { s.recv with status := .idle }
        response := .received .retOk len out } ∧
      len.toNat = s.recv.size.toNat ∧ out.length = min s.recv.size.toNat cap.toNat ∧
      ∀ k (h : k < out.length), out[k] = s.recv.buf.get k

/-- 42_receive.md R200 step (a) (D30 for the length 0): without a held message RECV returns RET_NO_DATA and changes
nothing. -/
def Obligations.RecvWithoutAMessage : Prop :=
  ∀ (s : State) (cap : BitVec 16), s.recv.status ≠ .full →
    exec (.recv cap) s = .next { s with response := .received .retNoData 0 [] }

/-! ### The step -/

/-- 00_scope.md R8, 43_link_ops.md R220: a step takes the next request off the queue, samples its clock value and its
transmit answer, clears the response, and runs the instruction its image holds (the queue is the model's: log 4, 5, 6). -/
def Obligations.StepRunsTheDecodedInstruction : Prop :=
  ∀ (s : State) (r : Request) (rest : List Request) (i : Instr), s.pending = r :: rest → decode r.image = .ok i →
    step s = exec i { s with pending := rest, now := r.now, txOk := r.txOk, response := .nothing }

/-- 30_encoding.md R110, 40_codec.md R138, 93_implementation_defined.md U1: a step with nothing presented changes nothing;
`op = 0` and a frame the decoder drops consume the request and change nothing else (log 8); two operations at once are
refused. -/
def Obligations.StepWithoutAnInstruction : Prop :=
  (∀ s : State, s.pending = [] → step s = .next s) ∧
  (∀ (s : State) (r : Request) (rest : List Request), s.pending = r :: rest →
    (decode r.image = .error .noOperation ∨ ∃ why, decode r.image = .error (.badFrame why)) →
    step s = .next { s with pending := rest, now := r.now, txOk := r.txOk, response := .nothing }) ∧
  ∀ (s : State) (c : Command) (r : Request) (rest : List Request), s.pending = r :: rest → r.image = .command c →
    c.op ∉ [0b00000, 0b00001, 0b00010, 0b00100, 0b01000, 0b10000] → step s = .refused .concurrentOperations

/-! ### Invariants and whole-machine rules -/

/-- The invariants of 10_state.md section 5 hold at reset. -/
def Obligations.InvariantHoldsAtReset : Prop := State.reset.Inv

/-- 10_state.md R44 to R48: every step keeps the invariants of both sides, the canonical form of both buffers among them. -/
def Obligations.EveryStepKeepsTheInvariant : Prop :=
  ∀ s t : State, s.Inv → step s = .next t → t.Inv

/-- 10_state.md R44: in every state a host can bring the link to, `0 ≤ offset ≤ size ≤ capacity` for both directions. -/
def Obligations.PositionsStayWithinTheBuffers : Prop :=
  ∀ s : State, Reachable s →
    s.send.offset.toNat ≤ s.send.size.toNat ∧ s.send.size.toNat ≤ s.cfg.maxMsg ∧
    s.recv.offset.toNat ≤ s.recv.size.toNat ∧ s.recv.size.toNat ≤ s.cfg.maxMsg

/-- 60_exceptions.md R240, 20_memory.md R62, R63: from a state of the invariant no step faults, and a step is refused only
when the host presents two operations at once: the block never stops because of an error. -/
def Obligations.TheBlockNeverStops : Prop :=
  ∀ s : State, s.Inv →
    (∀ f, step s ≠ .fault f) ∧
    ((∀ r rest, s.pending = r :: rest → Serialised r) → ∃ t, step s = .next t)

/-- 00_scope.md R11: single, first and consecutive frames, the receive half of POLL and RECV write no `send.*` register;
SEND, flow-control frames and the send half of POLL write no `recv.*` register; and the receive side depends on the send
side through `send.id` alone. -/
def Obligations.DirectionsAreIndependent : Prop :=
  (∀ (s t : State) (d : List Byte), exec (.sf d) s = .next t → t.send = s.send) ∧
  (∀ (s t : State) (n : BitVec 12) (d : List Byte), exec (.ff n d) s = .next t → t.send = s.send) ∧
  (∀ (s t : State) (sn : Nibble) (d : List Byte), exec (.cf sn d) s = .next t → t.send = s.send) ∧
  (∀ (s t : State) (cap : BitVec 16), exec (.recv cap) s = .next t → t.send = s.send) ∧
  (∀ (s t : State) (p : List Byte), exec (.send p) s = .next t → t.recv = s.recv) ∧
  (∀ (s t : State) (fs : Nibble) (bs st : Byte),
    exec (.fcCts bs st) s = .next t ∨ exec (.fcWait bs st) s = .next t ∨ exec (.fcOvflw bs st) s = .next t ∨
      exec (.fcRsvd fs bs st) s = .next t → t.recv = s.recv) ∧
  (∀ (s t u : State) (c : SendContext), exec .poll s = .next t → exec .poll { s with send := c } = .next u →
    u.recv = t.recv) ∧
  (∀ (s t u : State) (c : RecvContext), exec .poll s = .next t → exec .poll { s with recv := c } = .next u →
    u.send = t.send ∧ u.trace = t.trace) ∧
  (∀ (s t : State) (c : SendContext) (raw : List Byte), c.id = s.send.id →
    (∀ fs bs st, decodeFrame s.cfg.maxMsg raw ≠ .flowControl fs bs st) → exec (.rx raw) s = .next t →
    exec (.rx raw) { s with send := c } = .next { t with send := c })

/-- 10_state.md R33, R42 (D39 for `recv.id`): no rule reads a result register or `recv.id`: two states that differ there
alone take every instruction to states that differ there alone. -/
def Obligations.ResultsAndReceiveIdDecideNothing : Prop :=
  ∀ (i : Instr) (s s' t : State), s.eraseUnread = s'.eraseUnread → exec i s = .next t →
    ∃ t', exec i s' = .next t' ∧ t.eraseUnread = t'.eraseUnread

/-- 20_memory.md R74 (derived there): no step ever shows a byte of a buffer that was not written for the message in
progress or held: two states that differ in such bytes alone give the same registers, responses and frames ever after. -/
def Obligations.UnwrittenBytesAreNeverShown : Prop :=
  ∀ s t s' : State, s.Inv → s.Agrees t → step s = .next s' → ∃ t', step t = .next t' ∧ s'.Agrees t'

/-- 00_scope.md R8, 60_exceptions.md R262, 30_encoding.md R84 (padding of every shape: D10), 42_receive.md R186 (D27): a step
makes at most one transmit attempt, under `send.id`, with the answer of its request, of one of the four frames: a single, a
first or a consecutive frame, a "continue" as configured or an "overflow". It has 8 bytes when PAD is set, and its natural
length when it is not. The bytes themselves are `EncodersGiveTheirExactBytes`. -/
def Obligations.AtMostOneFramePerStep : Prop :=
  ∀ (s t : State) (r : Request) (rest : List Request), s.pending = r :: rest → step s = .next t →
    t.trace = s.trace ∨ ∃ f, t.trace = s.trace ++ [{ id := s.send.id, frame := f, ok := r.txOk }] ∧
      1 ≤ f.length ∧ f.length ≤ 8 ∧ (s.cfg.pad = true → f.length = 8) ∧
      ((∃ p, p.length ≤ 7 ∧ f = encodeSingle s.cfg.pad p ∧ (s.cfg.pad = false → f.length = p.length + 1)) ∨
        (∃ (n : BitVec 12) (d : List Byte), 8 ≤ n.toNat ∧ d.length = 6 ∧ f = encodeFirst n d ∧ f.length = 8) ∨
        (∃ sn c, c.length ≤ 7 ∧ f = encodeConsecutive s.cfg.pad sn c ∧ (s.cfg.pad = false → f.length = c.length + 1)) ∨
        ((f = encodeFlowControl s.cfg.pad fsContinue (BitVec.ofNat 8 s.cfg.bsDefault) s.cfg.stDefault ∨
            f = encodeFlowControl s.cfg.pad fsOverflow 0 0) ∧
          (s.cfg.pad = false → f.length = 3)))

/-- 41_send.md R156, R167, R168 (derived there), 60_exceptions.md R254, 00_scope.md R11: outside a transfer only SEND and INIT
change a send register. -/
def Obligations.OnlySendAndInitLeaveTheRestingStates : Prop :=
  ∀ (i : Instr) (s t : State), s.send.status ≠ .inProgress → (∀ p, i ≠ .send p) → (∀ a b, i ≠ .init a b) →
    exec i s = .next t → t.send = s.send

/-- 10_state.md R45: the size of a transfer in flight does not change, but by an instruction that starts a new one: a SEND,
and a first frame that the decoder accepts, presented by itself or to RX. -/
def Obligations.SizeIsFixedInFlight : Prop :=
  (∀ (i : Instr) (s t : State), (∀ p, i ≠ .send p) → exec i s = .next t → t.send.status = .inProgress →
    s.send.status = .inProgress ∧ t.send.size = s.send.size) ∧
  (∀ (i : Instr) (s t : State), (∀ n d, i ≠ .ff n d) →
    (∀ raw n d, i = .rx raw → decodeFrame s.cfg.maxMsg raw ≠ .first n d) → exec i s = .next t →
    t.recv.status = .inProgress → s.recv.status = .inProgress ∧ t.recv.size = s.recv.size)

/-- 70_reset_and_hazards.md R283, 10_state.md R23, R33: no step changes the configuration, and only INIT changes the two
identifiers. -/
def Obligations.ConfigurationAndIdentifiersAreFixed : Prop :=
  (∀ s t : State, step s = .next t → t.cfg = s.cfg) ∧
  ∀ (i : Instr) (s t : State), (∀ a b, i ≠ .init a b) → exec i s = .next t →
    t.send.id = s.send.id ∧ t.recv.id = s.recv.id

/-- 30_encoding.md R112, 43_link_ops.md R224 (codes: D12): what the host reads back tells the two statuses and the two
results apart, and nothing else. -/
def Obligations.ReadBackShowsStatusesAndResults : Prop :=
  ∀ s t : State, readBack s = readBack t ↔
    s.send.status = t.send.status ∧ s.send.result = t.send.result ∧ s.recv.status = t.recv.status ∧
      s.recv.result = t.recv.result

/-! ### Time -/

/-- 60_exceptions.md R258, R259, R261 (strictness: D3): across the wrap of the clock, and under the clock duty of R265, a
deadline reads as passed exactly when more than the period has gone by since it was armed. -/
def Obligations.DeadlinesAreExactAcrossTheWrap : Prop :=
  ∀ (armed now : Time) (period : Nat), period < 2147483648 → ClockDuty armed now period →
    (after now (deadline armed period) = true ↔ period < (now - armed).toNat)

/-- 41_send.md R161 (property T5; strictness: D3): after an accepted first frame, without flow control, POLL leaves the send side alone
until more than N_BS ms have passed, and then ends it in ERROR with TIMEOUT_BS; no frame is sent. -/
def Obligations.FlowControlTimeoutIsExact : Prop :=
  ∀ (s t : State) (p : List Byte) (clock : Time), 8 ≤ p.length → p.length ≤ s.cfg.maxMsg → s.txOk = true →
    exec (.send p) s = .next t → ClockDuty s.now clock s.cfg.nBs →
    ∃ u, exec .poll { t with now := clock } = .next u ∧ u.trace = t.trace ∧
      ((clock - s.now).toNat ≤ s.cfg.nBs → u.send = t.send) ∧
      (s.cfg.nBs < (clock - s.now).toNat → u.send = { t.send with status := .error, result := .timeoutBs })

/-- 41_send.md R157 (property T6; strictness: D3): a POLL that transmits under a separation time of N ms, N above 0, comes more than N ms
after the consecutive frame before it; under a separation time of 0 the timer is not looked at. -/
def Obligations.ConsecutiveFramesKeepTheirDistance : Prop :=
  ∀ s t : State, exec .poll s = .next t → t.trace ≠ s.trace →
    s.send.stMin ≠ 0 → s.send.stMin.toNat < (s.now - s.send.timerSt).toNat

/-! ### Messages -/

/-- 42_receive.md R206, R194 (property T2): the frames of a message, given to RX one by one in any state (D25), at any clock
values and with any answers of the transport, whatever they are (D27), leave the message held with result OK (D23); RECV then returns its bytes
exactly. The transmit attempts on the way are one "continue" after the first frame and one after each full block (D26) but
at the end of the message, each under `send.id` (D27) with the answer of the request it falls in. The flow status 0 of those frames is PRESUMED
(log 11; D13). -/
def Obligations.ReassemblyIsByteExact : Prop :=
  ∀ (s : State) (padMode : Bool) (msg : List Byte) (requests : List Request),
    8 ≤ msg.length → msg.length ≤ s.cfg.maxMsg →
    requests.map Request.image = (segments padMode msg).map (fun f => .command { op := 0b00100, raw := f }) →
    ∃ t, serve requests s = .next t ∧ t.recv.status = .full ∧ t.recv.result = .ok ∧
      t.send = s.send ∧
      t.trace = s.trace ++ continueAttempts s.cfg s.send.id (requests.take (consecutiveCount msg.length)) ∧
      ∀ cap : BitVec 16, msg.length ≤ cap.toNat → ∃ (u : State) (len : BitVec 16), exec (.recv cap) t = .next u ∧
        u.response = .received .retOk len msg ∧ len.toNat = msg.length

/-- 41_send.md R153, R158, R169: a SEND, then a "continue" with credit and no separation time before each POLL, hands the
transport exactly the frames of the message in order, whatever the clock reads (a frame goes out before the old deadline is
looked at: D29), and ends IDLE with result OK. The flow status 0 of the fed frames is PRESUMED (log 11; D13). -/
def Obligations.SenderTransmitsTheSegmentation : Prop :=
  ∀ (s : State) (msg : List Byte) (requests : List Request) (credits : List Byte),
    8 ≤ msg.length → msg.length ≤ s.cfg.maxMsg →
    credits.length = consecutiveCount msg.length → (∀ bs ∈ credits, bs ≠ 0) →
    (∀ r ∈ requests, r.txOk = true) →
    requests.map Request.image = .command { op := 0b00010, payload := msg } ::
      (credits.flatMap fun bs => [.frame [0x30, bs, 0x00], .command { op := 0b01000 }]) →
    ∃ t, serve requests s = .next t ∧ t.send.status = .idle ∧ t.send.result = .ok ∧
      t.trace = s.trace ++ (segments s.cfg.pad msg).map fun f => { id := s.send.id, frame := f, ok := true }

/-- 42_receive.md R206 (property T2): the frames one link hands its transport for a message, delivered to another link of
any configuration that can hold it, in any state (D25), at any clock values (D29 for the sender's), with any answers of the transport
to the second link (D27) and with either padding, give the message back. The flow status 0 of the fed frames is PRESUMED (log 11; D13). -/
def Obligations.TwoLinksCarryTheMessage : Prop :=
  ∀ (a a' b : State) (msg : List Byte) (feeds deliveries : List Request) (credits : List Byte),
    8 ≤ msg.length → msg.length ≤ a.cfg.maxMsg → msg.length ≤ b.cfg.maxMsg →
    credits.length = consecutiveCount msg.length → (∀ bs ∈ credits, bs ≠ 0) → (∀ r ∈ feeds, r.txOk = true) →
    feeds.map Request.image = .command { op := 0b00010, payload := msg } ::
      (credits.flatMap fun bs => [.frame [0x30, bs, 0x00], .command { op := 0b01000 }]) →
    serve feeds a = .next a' →
    deliveries.map Request.image =
      (a'.trace.drop a.trace.length).map (fun x => .command { op := 0b00100, raw := x.frame }) →
    ∃ b', serve deliveries b = .next b' ∧ b'.recv.status = .full ∧
      ∀ cap : BitVec 16, msg.length ≤ cap.toNat → ∃ (u : State) (len : BitVec 16), exec (.recv cap) b' = .next u ∧
        u.response = .received .retOk len msg ∧ len.toNat = msg.length

/-- 40_codec.md R120 to R124, 30_encoding.md R84, R93: every byte of what the four encoders give, the first byte as
`16 * type + low nibble`. Unpadded a frame ends with its last field; padded it is filled to 8 bytes with 0x00, the
flow-control frame too (decision D10). -/
def Obligations.EncodersGiveTheirExactBytes : Prop :=
  ∀ padMode : Bool,
    (∀ p : List Byte, p.length ≤ 7 → ∃ b0 : Byte, b0.toNat = p.length ∧
      encodeSingle padMode p = b0 :: p ++ if padMode then List.replicate (7 - p.length) 0 else []) ∧
    (∀ (n : BitVec 12) (d : List Byte), 8 ≤ n.toNat → d.length = 6 → ∃ b0 b1 : Byte,
      b0.toNat = 16 + n.toNat / 256 ∧ b1.toNat = n.toNat % 256 ∧ encodeFirst n d = b0 :: b1 :: d) ∧
    (∀ (sn : Nibble) (c : List Byte), 1 ≤ c.length → c.length ≤ 7 → ∃ b0 : Byte, b0.toNat = 32 + sn.toNat ∧
      encodeConsecutive padMode sn c = b0 :: c ++ if padMode then List.replicate (7 - c.length) 0 else []) ∧
    (∀ (fs : Nibble) (bs : Byte) (ms : Nat), ∃ b0 st : Byte, b0.toNat = 48 + fs.toNat ∧ st.toNat = min ms 127 ∧
      encodeFlowControl padMode fs bs ms = [b0, bs, st] ++ if padMode then [0, 0, 0, 0, 0] else [])
end

