-- ==== Sys2Proof/Laws/Codec.lean ====
section
/-! SUPPORT. The laws of the frame codec: the fields of a byte, the separation time, what the decoder accepts, and its
round trips with the encoders. -/

namespace Sys2Proof

/-! ### Fields -/

@[simp] theorem hiNibble_packNibbles (h l : Nibble) : hiNibble (packNibbles h l) = h := by
  revert h l; decide

@[simp] theorem loNibble_packNibbles (h l : Nibble) : loNibble (packNibbles h l) = l := by
  revert h l; decide

@[simp] theorem packNibbles_hi_lo (b : Byte) : packNibbles (hiNibble b) (loNibble b) = b := by
  revert b; decide

theorem packLength_toNat (h : Nibble) (l : Byte) : (packLength h l).toNat = h.toNat * 256 + l.toNat := by
  rw [packLength, BitVec.toNat_append, Nat.shiftLeft_eq, Nat.or_comm]
  have := l.isLt
  rw [Nat.or_comm, ← Nat.shiftLeft_eq h.toNat 8, Nat.shiftLeft_add_eq_or_of_lt this]

@[simp] theorem packLength_hi_lo (n : BitVec 12) : packLength (lengthHi n) (lengthLo n) = n := by
  apply BitVec.eq_of_toNat_eq
  rw [packLength_toNat, lengthHi, lengthLo, BitVec.extractLsb'_toNat, BitVec.extractLsb'_toNat]
  have := n.isLt
  simp only [Nat.shiftRight_eq_div_pow, Nat.pow_zero, Nat.div_one]
  omega

/-! ### Padding -/

theorem length_padFrame (f : List Byte) (h : f.length ≤ 8) (padMode : Bool) :
    (padFrame padMode f).length = if padMode then 8 else f.length := by
  cases padMode <;> simp [padFrame]; omega

theorem padFrame_cons (padMode : Bool) (b : Byte) (f : List Byte) :
    padFrame padMode (b :: f) = b :: (if padMode then f ++ List.replicate (7 - f.length) 0 else f) := by
  cases padMode <;> simp [padFrame]

/-! ### Separation time -/

theorem stEncode_toNat (ms : Nat) : (stEncode ms).toNat = min ms 127 := by
  unfold stEncode
  split
  · rw [BitVec.toNat_ofNat]; omega
  · simp; omega

theorem stDecode_le (code : Byte) : (stDecode code).toNat ≤ 127 := by
  revert code; decide

theorem stDecode_stEncode (ms : Nat) : (stDecode (stEncode ms)).toNat = min ms 127 := by
  have h := stEncode_toNat ms
  have le : (stEncode ms).toNat ≤ 0x7F := by omega
  rw [stDecode, if_pos le, h]

/-! ### What the decoder accepts (40_codec.md R138) -/

/-- A frame that passes the length gate is decided by its arms. -/
theorem decodeShape_cons {b0 : Byte} {rest : List Byte} (h1 : 1 ≤ rest.length) (h2 : rest.length ≤ 7) :
    decodeShape (b0 :: rest) = decodeArms b0 rest := by
  have : ¬ rest.length < 1 := by omega
  have : ¬ 7 < rest.length := by omega
  simp [decodeShape, *]

/-- The length gate (R131). -/
theorem decodeShape_short {raw : List Byte} (h : raw.length < 2) : decodeShape raw = .error .tooShort := by
  match raw with
  | [] => rfl
  | [_] => rfl
  | _ :: _ :: _ => simp at h

theorem decodeShape_long {raw : List Byte} (h : 8 < raw.length) : decodeShape raw = .error .tooLong := by
  match raw with
  | [] => simp at h
  | b0 :: rest =>
    simp only [List.length_cons] at h
    have : ¬ rest.length < 1 := by omega
    have : 7 < rest.length := by omega
    simp [decodeShape, *]

/-- The rows of R138 in which the decoder accepts. -/
theorem decodeShape_ok {raw : List Byte} {f : Frame} (h : decodeShape raw = .ok f) :
    2 ≤ raw.length ∧ raw.length ≤ 8 ∧
      match f with
      | .single data => data.length ≤ 7
      | .first n data => raw.length = 8 ∧ 8 ≤ n.toNat ∧ data.length = 6
      | .consecutive _ data => data.length + 1 = raw.length
      | .flowControl _ _ _ => 3 ≤ raw.length := by
  match raw with
  | [] => simp [decodeShape] at h
  | b0 :: rest =>
    by_cases h1 : rest.length < 1
    · simp [decodeShape, h1] at h
    by_cases h2 : 7 < rest.length
    · simp [decodeShape, h1, h2] at h
    rw [decodeShape_cons (by omega) (by omega)] at h
    refine ⟨by simp; omega, by simp; omega, ?_⟩
    unfold decodeArms at h
    split at h
    · unfold decodeSingleArm at h
      split at h
      · cases h
      · cases h; simp only [List.length_take]; omega
    split at h
    · unfold decodeFirstArm at h
      split at h
      · cases h
      · split at h
        · cases h
        · split at h
          · cases h
          · cases h; simp only [List.length_cons]; omega
    split at h
    · cases h; simp
    split at h
    · unfold decodeFlowControlArm at h
      split at h
      · cases h; simp
      · cases h
    · cases h

/-- An unknown type is told only after the length gate, and only by the high nibble (R137). -/
theorem decodeShape_unknown {raw : List Byte} (h : decodeShape raw = .error .unknownType) :
    ∃ b0 rest, raw = b0 :: rest ∧ 1 ≤ rest.length ∧ rest.length ≤ 7 ∧ 4 ≤ (hiNibble b0).toNat := by
  match raw with
  | [] => simp [decodeShape] at h
  | b0 :: rest =>
    by_cases h1 : rest.length < 1
    · simp [decodeShape, h1] at h
    by_cases h2 : 7 < rest.length
    · simp [decodeShape, h1, h2] at h
    rw [decodeShape_cons (by omega) (by omega)] at h
    refine ⟨b0, rest, rfl, by omega, by omega, ?_⟩
    unfold decodeArms at h
    split at h
    · unfold decodeSingleArm at h; split at h <;> simp at h
    split at h
    · unfold decodeFirstArm at h
      split at h
      · simp at h
      · split at h
        · simp at h
        · split at h <;> simp at h
    split at h
    · simp at h
    split at h
    · unfold decodeFlowControlArm at h; split at h <;> simp at h
    · rename_i n0 n1 n2 n3
      generalize hiNibble b0 = t at *
      revert t; decide

theorem decodeShape_unknown_of {b0 : Byte} {rest : List Byte} (h1 : 1 ≤ rest.length) (h2 : rest.length ≤ 7)
    (h : 4 ≤ (hiNibble b0).toNat) : decodeShape (b0 :: rest) = .error .unknownType := by
  rw [decodeShape_cons h1 h2, decodeArms]
  have : hiNibble b0 ≠ 0 ∧ hiNibble b0 ≠ 1 ∧ hiNibble b0 ≠ 2 ∧ hiNibble b0 ≠ 3 := by
    generalize hiNibble b0 = t at *
    revert t; decide
  rw [if_neg this.1, if_neg this.2.1, if_neg this.2.2.1, if_neg this.2.2.2]

/-! ### Round trips (40_codec.md R139) -/

theorem decodeShape_encodeSingle (padMode : Bool) (data : List Byte) (h : data.length ≤ 7)
    (hp : padMode = true ∨ data ≠ []) : decodeShape (encodeSingle padMode data) = .ok (.single data) := by
  have dl : (BitVec.ofNat 4 data.length).toNat = data.length := by rw [BitVec.toNat_ofNat]; omega
  have pos : padMode = true ∨ 1 ≤ data.length := by
    rcases hp with h | h
    · exact .inl h
    · exact .inr (List.length_pos_iff.mpr h)
  rw [encodeSingle, padFrame_cons, decodeShape_cons]
  · simp only [decodeArms, hiNibble_packNibbles, loNibble_packNibbles, decodeSingleArm, dl, if_true]
    cases padMode <;> simp
  · cases padMode <;> simp_all
  · cases padMode <;> simp_all

theorem decodeShape_encodeFirst (n : BitVec 12) (data : List Byte) (hn : 8 ≤ n.toNat) (hd : data.length = 6) :
    decodeShape (encodeFirst n data) = .ok (.first n data) := by
  rw [encodeFirst, decodeShape_cons (by simp) (by simp [hd])]
  have : ¬ n.toNat < 8 := by omega
  simp [decodeArms, decodeFirstArm, hd, this]

theorem decodeShape_encodeConsecutive (padMode : Bool) (sn : Nibble) (chunk : List Byte)
    (h1 : 1 ≤ chunk.length) (h2 : chunk.length ≤ 7) :
    decodeShape (encodeConsecutive padMode sn chunk) =
      .ok (.consecutive sn (if padMode then chunk ++ List.replicate (7 - chunk.length) 0 else chunk)) := by
  rw [encodeConsecutive, padFrame_cons, decodeShape_cons]
  · simp [decodeArms]
  · cases padMode <;> simp_all
  · cases padMode <;> simp_all

theorem decodeShape_flowControl (fs : Nibble) (bs st : Byte) (rest : List Byte) (h : rest.length ≤ 5) :
    decodeShape (packNibbles 3 fs :: bs :: st :: rest) = .ok (.flowControl fs bs st) := by
  rw [decodeShape_cons (by simp) (by simp; omega)]
  simp [decodeArms, decodeFlowControlArm]

theorem decodeShape_encodeFlowControl (padMode : Bool) (fs : Nibble) (bs : Byte) (ms : Nat) :
    decodeShape (encodeFlowControl padMode fs bs ms) = .ok (.flowControl fs bs (stEncode ms)) := by
  rw [encodeFlowControl, padFrame_cons]
  cases padMode
  · exact decodeShape_flowControl fs bs (stEncode ms) [] (by simp)
  · exact decodeShape_flowControl fs bs (stEncode ms) _ (by simp)

/-! ### The decoders over a shape -/

theorem decodeFrameImage_ok {raw : List Byte} {f : Frame} (h : decodeShape raw = .ok f) :
    decodeFrameImage raw = .ok (instrOfFrame f) := by simp [decodeFrameImage, h]

theorem decodeFrameImage_unknown {b0 : Byte} {rest : List Byte} (h : decodeShape (b0 :: rest) = .error .unknownType) :
    decodeFrameImage (b0 :: rest) = .ok (.rsvdType (hiNibble b0) (loNibble b0) rest) := by simp [decodeFrameImage, h]

theorem decodeFrameImage_reject {raw : List Byte} {why : FrameReject} (h : decodeShape raw = .error why)
    (hne : why ≠ .unknownType) : decodeFrameImage raw = .error (.badFrame why) := by
  cases why <;> simp_all [decodeFrameImage]

theorem instrOfFrame_continue (bs st : Byte) : instrOfFrame (.flowControl fsContinue bs st) = .fcCts bs st := rfl

theorem instrOfFrame_wait (bs st : Byte) : instrOfFrame (.flowControl fsWait bs st) = .fcWait bs st := rfl

theorem instrOfFrame_overflow (bs st : Byte) : instrOfFrame (.flowControl fsOverflow bs st) = .fcOvflw bs st := rfl

/-- A flow status of 3 or more is none of the three the document names (30_encoding.md R94, R99). -/
theorem reserved_fs {fs : Nibble} (h : 3 ≤ fs.toNat) : fs ≠ fsContinue ∧ fs ≠ fsWait ∧ fs ≠ fsOverflow := by
  revert h; revert fs; decide

theorem instrOfFrame_reserved {fs : Nibble} (h : 3 ≤ fs.toNat) (bs st : Byte) :
    instrOfFrame (.flowControl fs bs st) = .fcRsvd fs bs st := by
  obtain ⟨h0, h1, h2⟩ := reserved_fs h
  simp only [instrOfFrame, if_neg h0, if_neg h1, if_neg h2]

theorem decodeFrame_of_error {maxMsg : Nat} {raw : List Byte} {why : FrameReject} (h : decodeShape raw = .error why) :
    decodeFrame maxMsg raw = .reject why := by simp [decodeFrame, h]

theorem decodeFrame_of_single {maxMsg : Nat} {raw data : List Byte} (h : decodeShape raw = .ok (.single data)) :
    decodeFrame maxMsg raw = .single data := by simp [decodeFrame, h]

theorem decodeFrame_of_first {maxMsg : Nat} {raw data : List Byte} {n : BitVec 12}
    (h : decodeShape raw = .ok (.first n data)) :
    decodeFrame maxMsg raw = if maxMsg < n.toNat then .firstOverflow n else .first n data := by simp [decodeFrame, h]

theorem decodeFrame_of_consecutive {maxMsg : Nat} {raw data : List Byte} {sn : Nibble}
    (h : decodeShape raw = .ok (.consecutive sn data)) : decodeFrame maxMsg raw = .consecutive sn data := by
  simp [decodeFrame, h]

theorem decodeFrame_of_flowControl {maxMsg : Nat} {raw : List Byte} {fs : Nibble} {bs st : Byte}
    (h : decodeShape raw = .ok (.flowControl fs bs st)) : decodeFrame maxMsg raw = .flowControl fs bs st := by
  simp [decodeFrame, h]

end Sys2Proof
end

