-- ==== Sys2Proof/Laws/Memory.lean ====
section
/-! SUPPORT. The laws of the two buffers: reading after writing, and the canonical form. -/

namespace Sys2Proof.Machine

/-- Looking up an index past the first cell. -/
theorem Memory.lookup_cons (k : Nat) (b : Byte) (m : Memory) (a : Nat) :
    List.lookup a ((k, b) :: m) = if a = k then some b else m.lookup a := by
  by_cases h : a = k
  · simp [List.lookup, h]
  · have : (a == k) = false := by simpa using h
    simp [List.lookup, this, h]

/-- A byte that is found is listed. -/
theorem Memory.mem_of_lookup {m : Memory} {a : Nat} {b : Byte} (h : m.lookup a = some b) : (a, b) ∈ m := by
  induction m with
  | nil => simp at h
  | cons c m ih =>
    obtain ⟨k, d⟩ := c
    rw [Memory.lookup_cons] at h
    split at h
    · simp_all
    · exact List.mem_cons_of_mem _ (ih h)

/-- What the cells of `bytes` say of index `a`. -/
theorem Memory.lookup_cells (bytes : List Byte) (i a : Nat) :
    ((Memory.cells i bytes).lookup a).getD Memory.unlisted =
      if h : i ≤ a ∧ a - i < bytes.length then bytes[a - i] else Memory.unlisted := by
  induction bytes generalizing i with
  | nil => simp [Memory.cells]
  | cons b bs ih =>
    have tail : ((Memory.cells (i + 1) bs).lookup a).getD Memory.unlisted =
        if h : i + 1 ≤ a ∧ a - (i + 1) < bs.length then bs[a - (i + 1)] else Memory.unlisted := ih (i + 1)
    by_cases hia : a = i
    · subst hia
      by_cases hb : b = Memory.unlisted
      · rw [Memory.cells, if_pos hb, tail]
        simp [hb]
      · simp [Memory.cells, if_neg hb]
    · have skip : ((Memory.cells i (b :: bs)).lookup a) = (Memory.cells (i + 1) bs).lookup a := by
        rw [Memory.cells]
        split
        · rfl
        · rw [Memory.lookup_cons, if_neg hia]
      rw [skip, tail]
      by_cases hle : i + 1 ≤ a
      · have e : a - i = (a - (i + 1)) + 1 := by omega
        simp only [hle, true_and, List.length_cons, e, List.getElem_cons_succ]
        have : (i ≤ a ∧ a - (i + 1) + 1 < bs.length + 1) ↔ a - (i + 1) < bs.length := by omega
        simp only [this]
      · have h1 : ¬ (i ≤ a ∧ a - i < (b :: bs).length) := by omega
        have h2 : ¬ (i + 1 ≤ a ∧ a - (i + 1) < bs.length) := by omega
        simp only [h1, h2, dite_false]

/-- An index the cells do not reach is not listed in them. -/
theorem Memory.mem_cells {bytes : List Byte} {i : Nat} {c : Host.Cell} (h : c ∈ Memory.cells i bytes) :
    i ≤ c.1 ∧ c.1 < i + bytes.length ∧ c.2 ≠ Memory.unlisted := by
  induction bytes generalizing i with
  | nil => simp [Memory.cells] at h
  | cons b bs ih =>
    rw [Memory.cells] at h
    split at h
    · obtain ⟨h1, h2, h3⟩ := ih h
      exact ⟨by omega, by simp only [List.length_cons]; omega, h3⟩
    · rename_i hb
      rcases List.mem_cons.mp h with rfl | h
      · exact ⟨by simp, by simp, hb⟩
      · obtain ⟨h1, h2, h3⟩ := ih h
        exact ⟨by omega, by simp only [List.length_cons]; omega, h3⟩

theorem Memory.cells_pairwise (bytes : List Byte) (i : Nat) :
    (Memory.cells i bytes).Pairwise (fun c d => c.1 < d.1) := by
  induction bytes generalizing i with
  | nil => simp [Memory.cells]
  | cons b bs ih =>
    rw [Memory.cells]
    split
    · exact ih (i + 1)
    · refine List.pairwise_cons.mpr ⟨fun c hc => ?_, ih (i + 1)⟩
      have := (Memory.mem_cells hc).1
      simp only; omega

theorem Memory.lookup_filter (m : Memory) (p : Nat → Bool) (a : Nat) :
    (m.filter fun c => p c.1).lookup a = if p a then m.lookup a else none := by
  induction m with
  | nil => simp
  | cons c m ih =>
    obtain ⟨k, b⟩ := c
    by_cases hk : a = k
    · subst hk
      by_cases hp : p a = true
      · simp [hp]
      · simp [hp, ih]
    · by_cases hp : p k = true
      · simp [hp, Memory.lookup_cons, hk, ih]
      · simp [hp, Memory.lookup_cons, hk, ih]

/-- Reading after writing (20_memory.md R63): the written bytes in the window, every other byte as it was. -/
theorem Memory.get_write (m : Memory) (i : Nat) (bytes : List Byte) (a : Nat) :
    (m.write i bytes).get a =
      if h : i ≤ a ∧ a - i < bytes.length then bytes[a - i] else m.get a := by
  have cellsAt := Memory.lookup_cells bytes i a
  have low := Memory.lookup_filter m (fun k => decide (k < i)) a
  have high := Memory.lookup_filter m (fun k => decide (i + bytes.length ≤ k)) a
  simp only [Memory.get, Memory.write, List.lookup_append]
  simp only [low, high, decide_eq_true_eq]
  by_cases h : i ≤ a ∧ a - i < bytes.length
  · have h1 : ¬ a < i := by omega
    have h2 : ¬ i + bytes.length ≤ a := by omega
    simp only [h1, h2, if_false, Option.none_or, Option.or_none, cellsAt, h, and_self, dite_true]
  · have none : (Memory.cells i bytes).lookup a = none := by
      by_contra hne
      obtain ⟨b, hb⟩ := Option.ne_none_iff_exists'.mp hne
      have := Memory.mem_cells (Memory.mem_of_lookup hb)
      simp only at this; omega
    simp only [h, dite_false, none, Option.none_or]
    by_cases hlt : a < i
    · have : ¬ i + bytes.length ≤ a := by omega
      simp [hlt, this]
    · have : i + bytes.length ≤ a := by omega
      simp [hlt, this]

/-- A byte of the written window. -/
theorem Memory.get_write_inside (m : Memory) (i : Nat) (bytes : List Byte) (k : Nat) (hk : k < bytes.length) :
    (m.write i bytes).get (i + k) = bytes[k] := by
  rw [Memory.get_write, dif_pos ⟨by omega, by omega⟩]
  simp

/-- A byte outside the written window. -/
theorem Memory.get_write_outside (m : Memory) (i : Nat) (bytes : List Byte) (a : Nat)
    (h : a < i ∨ i + bytes.length ≤ a) : (m.write i bytes).get a = m.get a := by
  rw [Memory.get_write, dif_neg (by omega)]

/-- A write keeps the canonical form. -/
theorem Memory.wf_write {m : Memory} (h : m.wf) (i : Nat) (bytes : List Byte) : (m.write i bytes).wf := by
  refine ⟨?_, ?_⟩
  · rw [Memory.write, List.pairwise_append, List.pairwise_append]
    refine ⟨h.1.sublist List.filter_sublist, ⟨Memory.cells_pairwise _ _, h.1.sublist List.filter_sublist, ?_⟩, ?_⟩
    · intro c hc d hd
      have := Memory.mem_cells hc
      have := (List.mem_filter.mp hd).2
      simp only [decide_eq_true_eq] at this; omega
    · intro c hc d hd
      have hlt := (List.mem_filter.mp hc).2
      simp only [decide_eq_true_eq] at hlt
      rcases List.mem_append.mp hd with hd | hd
      · have := Memory.mem_cells hd; omega
      · have := (List.mem_filter.mp hd).2
        simp only [decide_eq_true_eq] at this; omega
  · intro c hc
    rw [Memory.write, List.mem_append, List.mem_append] at hc
    rcases hc with hc | hc | hc
    · exact h.2 c (List.mem_filter.mp hc).1
    · exact (Memory.mem_cells hc).2.2
    · exact h.2 c (List.mem_filter.mp hc).1

/-- A write inside a bound lists nothing at or above it. -/
theorem Memory.below_write {m : Memory} {cap : Nat} (h : ∀ c ∈ m, c.1 < cap) (i : Nat) (bytes : List Byte)
    (hle : i + bytes.length ≤ cap) : ∀ c ∈ m.write i bytes, c.1 < cap := by
  intro c hc
  rw [Memory.write, List.mem_append, List.mem_append] at hc
  rcases hc with hc | hc | hc
  · exact h c (List.mem_filter.mp hc).1
  · have := Memory.mem_cells hc; omega
  · exact h c (List.mem_filter.mp hc).1

/-- Two canonical memories that read alike are equal data. -/
theorem Memory.eq_of_get {m n : Memory} (hm : m.wf) (hn : n.wf) (h : ∀ a, m.get a = n.get a) : m = n := by
  have mem_iff : ∀ {m : Memory}, m.wf → ∀ c : Host.Cell, c ∈ m ↔ (m.get c.1 = c.2 ∧ c.2 ≠ Memory.unlisted) := by
    intro m hm c
    constructor
    · intro hc
      refine ⟨?_, hm.2 c hc⟩
      have : m.lookup c.1 = some c.2 := by
        obtain ⟨hp, -⟩ := hm
        induction m with
        | nil => simp at hc
        | cons d m ih =>
          rw [List.pairwise_cons] at hp
          rcases List.mem_cons.mp hc with rfl | hin
          · simp [List.lookup]
          · have hlt := hp.1 c hin
            obtain ⟨k, b⟩ := d
            rw [Memory.lookup_cons, if_neg (by simp only at hlt; omega)]
            exact ih hin hp.2
      simp [Memory.get, this]
    · rintro ⟨hg, hne⟩
      cases hl : m.lookup c.1 with
      | none => simp [Memory.get, hl] at hg; exact absurd hg.symm hne
      | some b =>
        simp only [Memory.get, hl, Option.getD_some] at hg
        subst hg
        exact Memory.mem_of_lookup hl
  have irrefl : ∀ a b : Host.Cell, a.1 < b.1 → b.1 < a.1 → a = b := fun a b h1 h2 => by omega
  refine List.Perm.eq_of_pairwise (fun a b _ _ h1 h2 => irrefl a b h1 h2) hm.1 hn.1 ?_
  have nodup : ∀ {m : Memory}, m.wf → m.Nodup := fun hw => hw.1.imp fun {a b} h e => by subst e; omega
  refine (List.perm_ext_iff_of_nodup (nodup hm) (nodup hn)).mpr fun c => ?_
  rw [mem_iff hm, mem_iff hn, h]

/-! ### Reading a run of bytes -/

@[simp] theorem Memory.length_bytes (m : Memory) (i n : Nat) : (m.bytes i n).length = n := by simp [Memory.bytes]

@[simp] theorem Memory.getElem_bytes (m : Memory) (i n k : Nat) (h : k < (m.bytes i n).length) :
    (m.bytes i n)[k] = m.get (i + k) := by simp [Memory.bytes]

/-- Reading back a run just written. -/
theorem Memory.bytes_write (m : Memory) (i : Nat) (bytes : List Byte) :
    (m.write i bytes).bytes i bytes.length = bytes := by
  refine List.ext_getElem (by simp) fun k h1 h2 => ?_
  rw [Memory.getElem_bytes, Memory.get_write_inside _ _ _ _ h2]

/-- A run read from a memory depends on its bytes only. -/
theorem Memory.bytes_congr {m n : Memory} {i k : Nat} (h : ∀ a, i ≤ a → a < i + k → m.get a = n.get a) :
    m.bytes i k = n.bytes i k := by
  refine List.ext_getElem (by simp) fun j h1 h2 => ?_
  rw [Memory.getElem_bytes, Memory.getElem_bytes]
  simp only [Memory.length_bytes] at h1
  exact h _ (by omega) (by omega)

/-- A run of the prefix just written is the run of the payload. -/
theorem Memory.bytes_write_zero (m : Memory) (bytes : List Byte) (i k : Nat) (h : i + k ≤ bytes.length) :
    (m.write 0 bytes).bytes i k = (bytes.drop i).take k := by
  refine List.ext_getElem (by simp; omega) fun j h1 h2 => ?_
  simp only [Memory.length_bytes] at h1
  rw [Memory.getElem_bytes]
  have := Memory.get_write_inside m 0 bytes (i + j) (by omega)
  rw [Nat.zero_add] at this
  rw [this]; simp

/-! ### BufRead and BufWrite -/

/-- BufRead answers exactly inside the buffer (20_memory.md R62). -/
theorem bufRead_eq_some {cap : Nat} {m : Memory} {i n : Nat} (h : i + n ≤ cap) :
    bufRead cap m i n = some (m.bytes i n) := if_pos h

/-- BufWrite answers exactly inside the buffer (20_memory.md R63). -/
theorem bufWrite_eq_some {cap : Nat} {m : Memory} {i : Nat} {bytes : List Byte} (h : i + bytes.length ≤ cap) :
    bufWrite cap m i bytes = some (m.write i bytes) := if_pos h

/-- What BufRead can answer. -/
theorem bufRead_cases {cap : Nat} {m : Memory} {i n : Nat} :
    (i + n ≤ cap ∧ bufRead cap m i n = some (m.bytes i n)) ∨ (cap < i + n ∧ bufRead cap m i n = none) := by
  by_cases h : i + n ≤ cap
  · exact .inl ⟨h, if_pos h⟩
  · exact .inr ⟨by omega, if_neg h⟩

/-- What BufWrite can answer. -/
theorem bufWrite_cases {cap : Nat} {m : Memory} {i : Nat} {bytes : List Byte} :
    (i + bytes.length ≤ cap ∧ bufWrite cap m i bytes = some (m.write i bytes)) ∨
      (cap < i + bytes.length ∧ bufWrite cap m i bytes = none) := by
  by_cases h : i + bytes.length ≤ cap
  · exact .inl ⟨h, if_pos h⟩
  · exact .inr ⟨by omega, if_neg h⟩

end Sys2Proof.Machine
end

