-- ==== Sys2Proof/Laws/State.lean ====
section
/-! SUPPORT. One lemma per field of State per named update, each true by `rfl`, so that no later proof unfolds a record
update; and the same for the updates of the two contexts that the meanings share. -/

namespace Sys2Proof.Machine

variable (s : State)

@[simp] theorem State.withSend_cfg (c : SendContext) : (s.withSend c).cfg = s.cfg := rfl
@[simp] theorem State.withSend_send (c : SendContext) : (s.withSend c).send = c := rfl
@[simp] theorem State.withSend_recv (c : SendContext) : (s.withSend c).recv = s.recv := rfl
@[simp] theorem State.withSend_pending (c : SendContext) : (s.withSend c).pending = s.pending := rfl
@[simp] theorem State.withSend_now (c : SendContext) : (s.withSend c).now = s.now := rfl
@[simp] theorem State.withSend_txOk (c : SendContext) : (s.withSend c).txOk = s.txOk := rfl
@[simp] theorem State.withSend_response (c : SendContext) : (s.withSend c).response = s.response := rfl
@[simp] theorem State.withSend_trace (c : SendContext) : (s.withSend c).trace = s.trace := rfl

@[simp] theorem State.withRecv_cfg (c : RecvContext) : (s.withRecv c).cfg = s.cfg := rfl
@[simp] theorem State.withRecv_send (c : RecvContext) : (s.withRecv c).send = s.send := rfl
@[simp] theorem State.withRecv_recv (c : RecvContext) : (s.withRecv c).recv = c := rfl
@[simp] theorem State.withRecv_pending (c : RecvContext) : (s.withRecv c).pending = s.pending := rfl
@[simp] theorem State.withRecv_now (c : RecvContext) : (s.withRecv c).now = s.now := rfl
@[simp] theorem State.withRecv_txOk (c : RecvContext) : (s.withRecv c).txOk = s.txOk := rfl
@[simp] theorem State.withRecv_response (c : RecvContext) : (s.withRecv c).response = s.response := rfl
@[simp] theorem State.withRecv_trace (c : RecvContext) : (s.withRecv c).trace = s.trace := rfl

@[simp] theorem State.respond_cfg (r : Response) : (s.respond r).cfg = s.cfg := rfl
@[simp] theorem State.respond_send (r : Response) : (s.respond r).send = s.send := rfl
@[simp] theorem State.respond_recv (r : Response) : (s.respond r).recv = s.recv := rfl
@[simp] theorem State.respond_pending (r : Response) : (s.respond r).pending = s.pending := rfl
@[simp] theorem State.respond_now (r : Response) : (s.respond r).now = s.now := rfl
@[simp] theorem State.respond_txOk (r : Response) : (s.respond r).txOk = s.txOk := rfl
@[simp] theorem State.respond_response (r : Response) : (s.respond r).response = r := rfl
@[simp] theorem State.respond_trace (r : Response) : (s.respond r).trace = s.trace := rfl

@[simp] theorem State.transmit_cfg (f : List Byte) : (s.transmit f).cfg = s.cfg := rfl
@[simp] theorem State.transmit_send (f : List Byte) : (s.transmit f).send = s.send := rfl
@[simp] theorem State.transmit_recv (f : List Byte) : (s.transmit f).recv = s.recv := rfl
@[simp] theorem State.transmit_pending (f : List Byte) : (s.transmit f).pending = s.pending := rfl
@[simp] theorem State.transmit_now (f : List Byte) : (s.transmit f).now = s.now := rfl
@[simp] theorem State.transmit_txOk (f : List Byte) : (s.transmit f).txOk = s.txOk := rfl
@[simp] theorem State.transmit_response (f : List Byte) : (s.transmit f).response = s.response := rfl
@[simp] theorem State.transmit_trace (f : List Byte) : (s.transmit f).trace = s.trace ++ [{ id := s.send.id, frame := f, ok := s.txOk }] := rfl

@[simp] theorem State.latch_cfg (r : Request) (rest : List Request) : (s.latch r rest).cfg = s.cfg := rfl
@[simp] theorem State.latch_send (r : Request) (rest : List Request) : (s.latch r rest).send = s.send := rfl
@[simp] theorem State.latch_recv (r : Request) (rest : List Request) : (s.latch r rest).recv = s.recv := rfl
@[simp] theorem State.latch_pending (r : Request) (rest : List Request) : (s.latch r rest).pending = rest := rfl
@[simp] theorem State.latch_now (r : Request) (rest : List Request) : (s.latch r rest).now = r.now := rfl
@[simp] theorem State.latch_txOk (r : Request) (rest : List Request) : (s.latch r rest).txOk = r.txOk := rfl
@[simp] theorem State.latch_response (r : Request) (rest : List Request) : (s.latch r rest).response = .nothing := rfl
@[simp] theorem State.latch_trace (r : Request) (rest : List Request) : (s.latch r rest).trace = s.trace := rfl

@[simp] theorem State.withSend_send_self : s.withSend s.send = s := rfl
@[simp] theorem State.withRecv_recv_self : s.withRecv s.recv = s := rfl
@[simp] theorem State.withSend_withSend (c d : SendContext) : (s.withSend c).withSend d = s.withSend d := rfl
@[simp] theorem State.withRecv_withRecv (c d : RecvContext) : (s.withRecv c).withRecv d = s.withRecv d := rfl

@[simp] theorem SendContext.abort_id (c : SendContext) (r : ProtocolResult) : (c.abort r).id = c.id := rfl
@[simp] theorem SendContext.abort_buf (c : SendContext) (r : ProtocolResult) : (c.abort r).buf = c.buf := rfl
@[simp] theorem SendContext.abort_size (c : SendContext) (r : ProtocolResult) : (c.abort r).size = c.size := rfl
@[simp] theorem SendContext.abort_offset (c : SendContext) (r : ProtocolResult) : (c.abort r).offset = c.offset := rfl
@[simp] theorem SendContext.abort_sn (c : SendContext) (r : ProtocolResult) : (c.abort r).sn = c.sn := rfl
@[simp] theorem SendContext.abort_bsCredit (c : SendContext) (r : ProtocolResult) : (c.abort r).bsCredit = c.bsCredit := rfl
@[simp] theorem SendContext.abort_stMin (c : SendContext) (r : ProtocolResult) : (c.abort r).stMin = c.stMin := rfl
@[simp] theorem SendContext.abort_waitCount (c : SendContext) (r : ProtocolResult) : (c.abort r).waitCount = c.waitCount := rfl
@[simp] theorem SendContext.abort_timerBs (c : SendContext) (r : ProtocolResult) : (c.abort r).timerBs = c.timerBs := rfl
@[simp] theorem SendContext.abort_timerSt (c : SendContext) (r : ProtocolResult) : (c.abort r).timerSt = c.timerSt := rfl
@[simp] theorem SendContext.abort_status (c : SendContext) (r : ProtocolResult) : (c.abort r).status = .error := rfl
@[simp] theorem SendContext.abort_result (c : SendContext) (r : ProtocolResult) : (c.abort r).result = r := rfl

@[simp] theorem SendContext.txFailed_id (c : SendContext) : c.txFailed.id = c.id := rfl
@[simp] theorem SendContext.txFailed_buf (c : SendContext) : c.txFailed.buf = c.buf := rfl
@[simp] theorem SendContext.txFailed_size (c : SendContext) : c.txFailed.size = c.size := rfl
@[simp] theorem SendContext.txFailed_offset (c : SendContext) : c.txFailed.offset = c.offset := rfl
@[simp] theorem SendContext.txFailed_sn (c : SendContext) : c.txFailed.sn = c.sn := rfl
@[simp] theorem SendContext.txFailed_bsCredit (c : SendContext) : c.txFailed.bsCredit = c.bsCredit := rfl
@[simp] theorem SendContext.txFailed_stMin (c : SendContext) : c.txFailed.stMin = c.stMin := rfl
@[simp] theorem SendContext.txFailed_waitCount (c : SendContext) : c.txFailed.waitCount = c.waitCount := rfl
@[simp] theorem SendContext.txFailed_timerBs (c : SendContext) : c.txFailed.timerBs = c.timerBs := rfl
@[simp] theorem SendContext.txFailed_timerSt (c : SendContext) : c.txFailed.timerSt = c.timerSt := rfl
@[simp] theorem SendContext.txFailed_status (c : SendContext) : c.txFailed.status = .error := rfl
@[simp] theorem SendContext.txFailed_result (c : SendContext) : c.txFailed.result = c.result := rfl

@[simp] theorem SendContext.armBs_id (c : SendContext) (cfg : Config) (now : Time) : (c.armBs cfg now).id = c.id := rfl
@[simp] theorem SendContext.armBs_buf (c : SendContext) (cfg : Config) (now : Time) : (c.armBs cfg now).buf = c.buf := rfl
@[simp] theorem SendContext.armBs_size (c : SendContext) (cfg : Config) (now : Time) : (c.armBs cfg now).size = c.size := rfl
@[simp] theorem SendContext.armBs_offset (c : SendContext) (cfg : Config) (now : Time) : (c.armBs cfg now).offset = c.offset := rfl
@[simp] theorem SendContext.armBs_sn (c : SendContext) (cfg : Config) (now : Time) : (c.armBs cfg now).sn = c.sn := rfl
@[simp] theorem SendContext.armBs_bsCredit (c : SendContext) (cfg : Config) (now : Time) : (c.armBs cfg now).bsCredit = c.bsCredit := rfl
@[simp] theorem SendContext.armBs_stMin (c : SendContext) (cfg : Config) (now : Time) : (c.armBs cfg now).stMin = c.stMin := rfl
@[simp] theorem SendContext.armBs_waitCount (c : SendContext) (cfg : Config) (now : Time) : (c.armBs cfg now).waitCount = c.waitCount := rfl
@[simp] theorem SendContext.armBs_timerBs (c : SendContext) (cfg : Config) (now : Time) : (c.armBs cfg now).timerBs = deadline now cfg.nBs := rfl
@[simp] theorem SendContext.armBs_timerSt (c : SendContext) (cfg : Config) (now : Time) : (c.armBs cfg now).timerSt = c.timerSt := rfl
@[simp] theorem SendContext.armBs_status (c : SendContext) (cfg : Config) (now : Time) : (c.armBs cfg now).status = c.status := rfl
@[simp] theorem SendContext.armBs_result (c : SendContext) (cfg : Config) (now : Time) : (c.armBs cfg now).result = c.result := rfl

@[simp] theorem SendContext.flowContinue_id (c : SendContext) (bs st : Byte) : (c.flowContinue bs st).id = c.id := rfl
@[simp] theorem SendContext.flowContinue_buf (c : SendContext) (bs st : Byte) : (c.flowContinue bs st).buf = c.buf := rfl
@[simp] theorem SendContext.flowContinue_size (c : SendContext) (bs st : Byte) : (c.flowContinue bs st).size = c.size := rfl
@[simp] theorem SendContext.flowContinue_offset (c : SendContext) (bs st : Byte) : (c.flowContinue bs st).offset = c.offset := rfl
@[simp] theorem SendContext.flowContinue_sn (c : SendContext) (bs st : Byte) : (c.flowContinue bs st).sn = c.sn := rfl
@[simp] theorem SendContext.flowContinue_bsCredit (c : SendContext) (bs st : Byte) : (c.flowContinue bs st).bsCredit = bs := rfl
@[simp] theorem SendContext.flowContinue_stMin (c : SendContext) (bs st : Byte) : (c.flowContinue bs st).stMin = stDecode st := rfl
@[simp] theorem SendContext.flowContinue_waitCount (c : SendContext) (bs st : Byte) : (c.flowContinue bs st).waitCount = 0 := rfl
@[simp] theorem SendContext.flowContinue_timerBs (c : SendContext) (bs st : Byte) : (c.flowContinue bs st).timerBs = c.timerBs := rfl
@[simp] theorem SendContext.flowContinue_timerSt (c : SendContext) (bs st : Byte) : (c.flowContinue bs st).timerSt = c.timerSt := rfl
@[simp] theorem SendContext.flowContinue_status (c : SendContext) (bs st : Byte) : (c.flowContinue bs st).status = c.status := rfl
@[simp] theorem SendContext.flowContinue_result (c : SendContext) (bs st : Byte) : (c.flowContinue bs st).result = c.result := rfl

@[simp] theorem SendContext.flowOverflow_id (c : SendContext) : c.flowOverflow.id = c.id := rfl
@[simp] theorem SendContext.flowOverflow_buf (c : SendContext) : c.flowOverflow.buf = c.buf := rfl
@[simp] theorem SendContext.flowOverflow_size (c : SendContext) : c.flowOverflow.size = c.size := rfl
@[simp] theorem SendContext.flowOverflow_offset (c : SendContext) : c.flowOverflow.offset = c.offset := rfl
@[simp] theorem SendContext.flowOverflow_sn (c : SendContext) : c.flowOverflow.sn = c.sn := rfl
@[simp] theorem SendContext.flowOverflow_bsCredit (c : SendContext) : c.flowOverflow.bsCredit = c.bsCredit := rfl
@[simp] theorem SendContext.flowOverflow_stMin (c : SendContext) : c.flowOverflow.stMin = c.stMin := rfl
@[simp] theorem SendContext.flowOverflow_waitCount (c : SendContext) : c.flowOverflow.waitCount = c.waitCount := rfl
@[simp] theorem SendContext.flowOverflow_timerBs (c : SendContext) : c.flowOverflow.timerBs = c.timerBs := rfl
@[simp] theorem SendContext.flowOverflow_timerSt (c : SendContext) : c.flowOverflow.timerSt = c.timerSt := rfl
@[simp] theorem SendContext.flowOverflow_status (c : SendContext) : c.flowOverflow.status = .error := rfl
@[simp] theorem SendContext.flowOverflow_result (c : SendContext) : c.flowOverflow.result = .bufferOverflow := rfl

@[simp] theorem SendContext.started_id (c : SendContext) (cfg : Config) (now : Time) : (c.started cfg now).id = c.id := rfl
@[simp] theorem SendContext.started_buf (c : SendContext) (cfg : Config) (now : Time) : (c.started cfg now).buf = c.buf := rfl
@[simp] theorem SendContext.started_size (c : SendContext) (cfg : Config) (now : Time) : (c.started cfg now).size = c.size := rfl
@[simp] theorem SendContext.started_offset (c : SendContext) (cfg : Config) (now : Time) : (c.started cfg now).offset = 6 := rfl
@[simp] theorem SendContext.started_sn (c : SendContext) (cfg : Config) (now : Time) : (c.started cfg now).sn = 1 := rfl
@[simp] theorem SendContext.started_bsCredit (c : SendContext) (cfg : Config) (now : Time) : (c.started cfg now).bsCredit = 0 := rfl
@[simp] theorem SendContext.started_stMin (c : SendContext) (cfg : Config) (now : Time) : (c.started cfg now).stMin = 0 := rfl
@[simp] theorem SendContext.started_waitCount (c : SendContext) (cfg : Config) (now : Time) : (c.started cfg now).waitCount = 0 := rfl
@[simp] theorem SendContext.started_timerBs (c : SendContext) (cfg : Config) (now : Time) : (c.started cfg now).timerBs = deadline now cfg.nBs := rfl
@[simp] theorem SendContext.started_timerSt (c : SendContext) (cfg : Config) (now : Time) : (c.started cfg now).timerSt = c.timerSt := rfl
@[simp] theorem SendContext.started_status (c : SendContext) (cfg : Config) (now : Time) : (c.started cfg now).status = .inProgress := rfl
@[simp] theorem SendContext.started_result (c : SendContext) (cfg : Config) (now : Time) : (c.started cfg now).result = .ok := rfl

@[simp] theorem SendContext.copied_id (c : SendContext) (buf : Memory) (n : Nat) : (c.copied buf n).id = c.id := rfl
@[simp] theorem SendContext.copied_buf (c : SendContext) (buf : Memory) (n : Nat) : (c.copied buf n).buf = buf := rfl
@[simp] theorem SendContext.copied_size (c : SendContext) (buf : Memory) (n : Nat) : (c.copied buf n).size = BitVec.ofNat 12 n := rfl
@[simp] theorem SendContext.copied_offset (c : SendContext) (buf : Memory) (n : Nat) : (c.copied buf n).offset = 0 := rfl
@[simp] theorem SendContext.copied_sn (c : SendContext) (buf : Memory) (n : Nat) : (c.copied buf n).sn = c.sn := rfl
@[simp] theorem SendContext.copied_bsCredit (c : SendContext) (buf : Memory) (n : Nat) : (c.copied buf n).bsCredit = c.bsCredit := rfl
@[simp] theorem SendContext.copied_stMin (c : SendContext) (buf : Memory) (n : Nat) : (c.copied buf n).stMin = c.stMin := rfl
@[simp] theorem SendContext.copied_waitCount (c : SendContext) (buf : Memory) (n : Nat) : (c.copied buf n).waitCount = c.waitCount := rfl
@[simp] theorem SendContext.copied_timerBs (c : SendContext) (buf : Memory) (n : Nat) : (c.copied buf n).timerBs = c.timerBs := rfl
@[simp] theorem SendContext.copied_timerSt (c : SendContext) (buf : Memory) (n : Nat) : (c.copied buf n).timerSt = c.timerSt := rfl
@[simp] theorem SendContext.copied_status (c : SendContext) (buf : Memory) (n : Nat) : (c.copied buf n).status = c.status := rfl
@[simp] theorem SendContext.copied_result (c : SendContext) (buf : Memory) (n : Nat) : (c.copied buf n).result = c.result := rfl

@[simp] theorem SendContext.advanced_id (c : SendContext) (n : Nat) (cfg : Config) (now : Time) : (c.advanced n cfg now).id = c.id := rfl
@[simp] theorem SendContext.advanced_buf (c : SendContext) (n : Nat) (cfg : Config) (now : Time) : (c.advanced n cfg now).buf = c.buf := rfl
@[simp] theorem SendContext.advanced_size (c : SendContext) (n : Nat) (cfg : Config) (now : Time) : (c.advanced n cfg now).size = c.size := rfl
@[simp] theorem SendContext.advanced_offset (c : SendContext) (n : Nat) (cfg : Config) (now : Time) : (c.advanced n cfg now).offset = c.offset + BitVec.ofNat 12 n := rfl
@[simp] theorem SendContext.advanced_sn (c : SendContext) (n : Nat) (cfg : Config) (now : Time) : (c.advanced n cfg now).sn = c.sn + 1 := rfl
@[simp] theorem SendContext.advanced_bsCredit (c : SendContext) (n : Nat) (cfg : Config) (now : Time) : (c.advanced n cfg now).bsCredit = c.bsCredit - 1 := rfl
@[simp] theorem SendContext.advanced_stMin (c : SendContext) (n : Nat) (cfg : Config) (now : Time) : (c.advanced n cfg now).stMin = c.stMin := rfl
@[simp] theorem SendContext.advanced_waitCount (c : SendContext) (n : Nat) (cfg : Config) (now : Time) : (c.advanced n cfg now).waitCount = c.waitCount := rfl
@[simp] theorem SendContext.advanced_timerBs (c : SendContext) (n : Nat) (cfg : Config) (now : Time) : (c.advanced n cfg now).timerBs = deadline now cfg.nBs := rfl
@[simp] theorem SendContext.advanced_timerSt (c : SendContext) (n : Nat) (cfg : Config) (now : Time) : (c.advanced n cfg now).timerSt = now := rfl
@[simp] theorem SendContext.advanced_status (c : SendContext) (n : Nat) (cfg : Config) (now : Time) : (c.advanced n cfg now).status = if c.offset + BitVec.ofNat 12 n = c.size then .idle else c.status := rfl
@[simp] theorem SendContext.advanced_result (c : SendContext) (n : Nat) (cfg : Config) (now : Time) : (c.advanced n cfg now).result = c.result := rfl

@[simp] theorem RecvContext.abort_id (c : RecvContext) (r : ProtocolResult) : (c.abort r).id = c.id := rfl
@[simp] theorem RecvContext.abort_buf (c : RecvContext) (r : ProtocolResult) : (c.abort r).buf = c.buf := rfl
@[simp] theorem RecvContext.abort_size (c : RecvContext) (r : ProtocolResult) : (c.abort r).size = c.size := rfl
@[simp] theorem RecvContext.abort_offset (c : RecvContext) (r : ProtocolResult) : (c.abort r).offset = c.offset := rfl
@[simp] theorem RecvContext.abort_sn (c : RecvContext) (r : ProtocolResult) : (c.abort r).sn = c.sn := rfl
@[simp] theorem RecvContext.abort_bsCount (c : RecvContext) (r : ProtocolResult) : (c.abort r).bsCount = c.bsCount := rfl
@[simp] theorem RecvContext.abort_timerCr (c : RecvContext) (r : ProtocolResult) : (c.abort r).timerCr = c.timerCr := rfl
@[simp] theorem RecvContext.abort_status (c : RecvContext) (r : ProtocolResult) : (c.abort r).status = .idle := rfl
@[simp] theorem RecvContext.abort_result (c : RecvContext) (r : ProtocolResult) : (c.abort r).result = r := rfl

@[simp] theorem RecvContext.armCr_id (c : RecvContext) (cfg : Config) (now : Time) : (c.armCr cfg now).id = c.id := rfl
@[simp] theorem RecvContext.armCr_buf (c : RecvContext) (cfg : Config) (now : Time) : (c.armCr cfg now).buf = c.buf := rfl
@[simp] theorem RecvContext.armCr_size (c : RecvContext) (cfg : Config) (now : Time) : (c.armCr cfg now).size = c.size := rfl
@[simp] theorem RecvContext.armCr_offset (c : RecvContext) (cfg : Config) (now : Time) : (c.armCr cfg now).offset = c.offset := rfl
@[simp] theorem RecvContext.armCr_sn (c : RecvContext) (cfg : Config) (now : Time) : (c.armCr cfg now).sn = c.sn := rfl
@[simp] theorem RecvContext.armCr_bsCount (c : RecvContext) (cfg : Config) (now : Time) : (c.armCr cfg now).bsCount = c.bsCount := rfl
@[simp] theorem RecvContext.armCr_timerCr (c : RecvContext) (cfg : Config) (now : Time) : (c.armCr cfg now).timerCr = deadline now cfg.nCr := rfl
@[simp] theorem RecvContext.armCr_status (c : RecvContext) (cfg : Config) (now : Time) : (c.armCr cfg now).status = c.status := rfl
@[simp] theorem RecvContext.armCr_result (c : RecvContext) (cfg : Config) (now : Time) : (c.armCr cfg now).result = c.result := rfl

@[simp] theorem SendContext.afterInit_id (i : Ident) (b : Memory) : (SendContext.afterInit i b).id = i := rfl
@[simp] theorem SendContext.afterInit_buf (i : Ident) (b : Memory) : (SendContext.afterInit i b).buf = b := rfl
@[simp] theorem SendContext.afterInit_size (i : Ident) (b : Memory) : (SendContext.afterInit i b).size = 0 := rfl
@[simp] theorem SendContext.afterInit_offset (i : Ident) (b : Memory) : (SendContext.afterInit i b).offset = 0 := rfl
@[simp] theorem SendContext.afterInit_sn (i : Ident) (b : Memory) : (SendContext.afterInit i b).sn = 0 := rfl
@[simp] theorem SendContext.afterInit_bsCredit (i : Ident) (b : Memory) : (SendContext.afterInit i b).bsCredit = 0 := rfl
@[simp] theorem SendContext.afterInit_stMin (i : Ident) (b : Memory) : (SendContext.afterInit i b).stMin = 0 := rfl
@[simp] theorem SendContext.afterInit_waitCount (i : Ident) (b : Memory) : (SendContext.afterInit i b).waitCount = 0 := rfl
@[simp] theorem SendContext.afterInit_timerBs (i : Ident) (b : Memory) : (SendContext.afterInit i b).timerBs = 0 := rfl
@[simp] theorem SendContext.afterInit_timerSt (i : Ident) (b : Memory) : (SendContext.afterInit i b).timerSt = 0 := rfl
@[simp] theorem SendContext.afterInit_status (i : Ident) (b : Memory) : (SendContext.afterInit i b).status = .idle := rfl
@[simp] theorem SendContext.afterInit_result (i : Ident) (b : Memory) : (SendContext.afterInit i b).result = .ok := rfl

@[simp] theorem RecvContext.afterInit_id (i : Ident) (b : Memory) : (RecvContext.afterInit i b).id = i := rfl
@[simp] theorem RecvContext.afterInit_buf (i : Ident) (b : Memory) : (RecvContext.afterInit i b).buf = b := rfl
@[simp] theorem RecvContext.afterInit_size (i : Ident) (b : Memory) : (RecvContext.afterInit i b).size = 0 := rfl
@[simp] theorem RecvContext.afterInit_offset (i : Ident) (b : Memory) : (RecvContext.afterInit i b).offset = 0 := rfl
@[simp] theorem RecvContext.afterInit_sn (i : Ident) (b : Memory) : (RecvContext.afterInit i b).sn = 0 := rfl
@[simp] theorem RecvContext.afterInit_bsCount (i : Ident) (b : Memory) : (RecvContext.afterInit i b).bsCount = 0 := rfl
@[simp] theorem RecvContext.afterInit_timerCr (i : Ident) (b : Memory) : (RecvContext.afterInit i b).timerCr = 0 := rfl
@[simp] theorem RecvContext.afterInit_status (i : Ident) (b : Memory) : (RecvContext.afterInit i b).status = .idle := rfl
@[simp] theorem RecvContext.afterInit_result (i : Ident) (b : Memory) : (RecvContext.afterInit i b).result = .ok := rfl

end Sys2Proof.Machine
end

