-- ==== Sys2Proof/Laws/Exec.lean ====
section
/-! SUPPORT. One lemma for each shared operation of the meanings that says what it answers: the equation where its buffer
accesses are defined, and the inversion of a next state. Proofs about instructions cite these and unfold no meaning. -/

namespace Sys2Proof.Machine

/-! ### Buffer accesses inside a meaning -/

theorem withBuffer_next {r : Option Memory} {k : Memory → Result} {t : State} (h : withBuffer r k = .next t) :
    ∃ buf, r = some buf ∧ k buf = .next t := by
  cases r with
  | none => cases h
  | some buf => exact ⟨buf, rfl, h⟩

theorem withBytes_next {r : Option (List Byte)} {k : List Byte → Result} {t : State} (h : withBytes r k = .next t) :
    ∃ data, r = some data ∧ k data = .next t := by
  cases r with
  | none => cases h
  | some data => exact ⟨data, rfl, h⟩

theorem bufWrite_some {cap : Nat} {m buf : Memory} {i : Nat} {bytes : List Byte} (h : bufWrite cap m i bytes = some buf) :
    i + bytes.length ≤ cap ∧ buf = m.write i bytes := by
  rcases bufWrite_cases (cap := cap) (m := m) (i := i) (bytes := bytes) with ⟨hle, e⟩ | ⟨-, e⟩
  · rw [e] at h; exact ⟨hle, (Option.some.inj h).symm⟩
  · rw [e] at h; cases h

theorem bufRead_some {cap : Nat} {m : Memory} {i n : Nat} {data : List Byte} (h : bufRead cap m i n = some data) :
    i + n ≤ cap ∧ data = m.bytes i n := by
  rcases bufRead_cases (cap := cap) (m := m) (i := i) (n := n) with ⟨hle, e⟩ | ⟨-, e⟩
  · rw [e] at h; exact ⟨hle, (Option.some.inj h).symm⟩
  · rw [e] at h; cases h

theorem withBuffer_write {cap : Nat} {m : Memory} {i : Nat} {bytes : List Byte} (h : i + bytes.length ≤ cap)
    (k : Memory → Result) : withBuffer (bufWrite cap m i bytes) k = k (m.write i bytes) := by
  rw [bufWrite_eq_some h]; rfl

theorem withBytes_read {cap : Nat} {m : Memory} {i n : Nat} (h : i + n ≤ cap) (k : List Byte → Result) :
    withBytes (bufRead cap m i n) k = k (m.bytes i n) := by
  rw [bufRead_eq_some h]; rfl

theorem andThen_next {r : Result} {k : State → State} {t : State} (h : andThen r k = .next t) :
    ∃ s, r = .next s ∧ k s = t := by
  cases r with
  | next s => exact ⟨s, rfl, by cases h; rfl⟩
  | fault => cases h
  | refused => cases h

@[simp] theorem andThen_of_next (s : State) (k : State → State) : andThen (.next s) k = .next (k s) := rfl

/-! ### Receive side -/

/-- The receive context after a single frame (42_receive.md R181). -/
def RecvContext.afterSingle (c : RecvContext) (data : List Byte) : RecvContext :=
  { c with
    result := arrivalResult c.status
    buf := c.buf.write 0 data
    size := BitVec.ofNat 12 data.length
    offset := BitVec.ofNat 12 data.length
    status := .full }

/-- The receive context after an accepted first frame (42_receive.md R185). -/
def RecvContext.afterFirst (c : RecvContext) (cfg : Config) (now : Time) (ffDl : BitVec 12) (data : List Byte) :
    RecvContext :=
  { c with
    result := arrivalResult c.status
    buf := c.buf.write 0 data
    size := ffDl
    offset := 6
    sn := 1
    bsCount := BitVec.ofNat 8 cfg.bsDefault
    status := .inProgress
    timerCr := deadline now cfg.nCr }

/-- The receive context after step (c) of a matching consecutive frame (42_receive.md R192). -/
def RecvContext.afterMatching (c : RecvContext) (cfg : Config) (now : Time) (data : List Byte) : RecvContext :=
  { c with
    buf := c.buf.write c.offset.toNat (data.take (c.takeLength data))
    offset := c.offset + BitVec.ofNat 12 (c.takeLength data)
    sn := c.sn + 1
    result := .ok
    timerCr := deadline now cfg.nCr }

theorem rxSingle_eq {data : List Byte} {s : State} (h : data.length ≤ s.cfg.maxMsg) :
    rxSingle data s = .next (s.withRecv (s.recv.afterSingle data)) :=
  withBuffer_write (by omega) _

theorem rxSingle_next {data : List Byte} {s t : State} (h : rxSingle data s = .next t) :
    data.length ≤ s.cfg.maxMsg ∧ t = s.withRecv (s.recv.afterSingle data) := by
  obtain ⟨buf, hb, hk⟩ := withBuffer_next h
  obtain ⟨hle, rfl⟩ := bufWrite_some hb
  cases hk
  exact ⟨by omega, rfl⟩

theorem rxFirst_eq {n : BitVec 12} {data : List Byte} {s : State} (h : data.length ≤ s.cfg.maxMsg) :
    rxFirst n data s = .next (s.withRecv (s.recv.afterFirst s.cfg s.now n data)).transmitContinue :=
  withBuffer_write (by omega) _

theorem rxFirst_next {n : BitVec 12} {data : List Byte} {s t : State} (h : rxFirst n data s = .next t) :
    data.length ≤ s.cfg.maxMsg ∧ t = (s.withRecv (s.recv.afterFirst s.cfg s.now n data)).transmitContinue := by
  obtain ⟨buf, hb, hk⟩ := withBuffer_next h
  obtain ⟨hle, rfl⟩ := bufWrite_some hb
  cases hk
  exact ⟨by omega, rfl⟩

theorem rxMatching_eq {data : List Byte} {s : State}
    (h : s.recv.offset.toNat + s.recv.takeLength data ≤ s.cfg.maxMsg) :
    rxMatching data s = .next (rxProgress (s.withRecv (s.recv.afterMatching s.cfg s.now data))) :=
  withBuffer_write (by
    have : (data.take (s.recv.takeLength data)).length ≤ s.recv.takeLength data := by simp
    omega) _

theorem rxMatching_next {data : List Byte} {s t : State} (h : rxMatching data s = .next t) :
    s.recv.offset.toNat + s.recv.takeLength data ≤ s.cfg.maxMsg ∧
      t = rxProgress (s.withRecv (s.recv.afterMatching s.cfg s.now data)) := by
  obtain ⟨buf, hb, hk⟩ := withBuffer_next h
  obtain ⟨hle, rfl⟩ := bufWrite_some hb
  cases hk
  refine ⟨?_, rfl⟩
  have : s.recv.takeLength data ≤ data.length := by simp only [RecvContext.takeLength]; omega
  simp only [List.length_take] at hle
  omega

theorem rxProgress_complete {s : State} (h : s.recv.offset = s.recv.size) :
    rxProgress s = s.withRecv { s.recv with status := .full } := if_pos h

theorem rxProgress_reload {s : State} (h : s.recv.offset ≠ s.recv.size) (hz : s.recv.bsCount - 1 = 0) :
    rxProgress s = (s.withRecv { s.recv with bsCount := BitVec.ofNat 8 s.cfg.bsDefault }).transmitContinue := by
  rw [rxProgress, if_neg h, rxWindow, if_pos hz]

theorem rxProgress_count {s : State} (h : s.recv.offset ≠ s.recv.size) (hz : s.recv.bsCount - 1 ≠ 0) :
    rxProgress s = s.withRecv { s.recv with bsCount := s.recv.bsCount - 1 } := by
  rw [rxProgress, if_neg h, rxWindow, if_neg hz]

/-- What the end of RX_CF can do: complete the message, advance the window, or reload it and transmit a "continue". -/
theorem rxProgress_cases (s : State) :
    (s.recv.offset = s.recv.size ∧ rxProgress s = s.withRecv { s.recv with status := .full }) ∨
    (s.recv.offset ≠ s.recv.size ∧ s.recv.bsCount - 1 = 0 ∧
      rxProgress s = (s.withRecv { s.recv with bsCount := BitVec.ofNat 8 s.cfg.bsDefault }).transmitContinue) ∨
    (s.recv.offset ≠ s.recv.size ∧ s.recv.bsCount - 1 ≠ 0 ∧
      rxProgress s = s.withRecv { s.recv with bsCount := s.recv.bsCount - 1 }) := by
  by_cases h : s.recv.offset = s.recv.size
  · exact .inl ⟨h, rxProgress_complete h⟩
  · by_cases hz : s.recv.bsCount - 1 = 0
    · exact .inr (.inl ⟨h, hz, rxProgress_reload h hz⟩)
    · exact .inr (.inr ⟨h, hz, rxProgress_count h hz⟩)

theorem rxConsecutive_outside {sn : Nibble} {data : List Byte} {s : State} (h : s.recv.status ≠ .inProgress) :
    rxConsecutive sn data s = .next (s.withRecv { s.recv with result := .unexpectedPdu }) := if_pos h

theorem rxConsecutive_wrong {sn : Nibble} {data : List Byte} {s : State} (h : s.recv.status = .inProgress)
    (hs : sn ≠ s.recv.sn) : rxConsecutive sn data s = .next (s.withRecv (s.recv.abort .wrongSn)) := by
  rw [rxConsecutive, if_neg (by simp [h]), if_pos hs]

theorem rxConsecutive_matching {data : List Byte} {s : State} (h : s.recv.status = .inProgress) :
    rxConsecutive s.recv.sn data s = rxMatching data s := by
  rw [rxConsecutive, if_neg (by simp [h]), if_neg (by simp)]

/-- What a consecutive frame can do. -/
theorem rxConsecutive_next {sn : Nibble} {data : List Byte} {s t : State} (h : rxConsecutive sn data s = .next t) :
    (s.recv.status ≠ .inProgress ∧ t = s.withRecv { s.recv with result := .unexpectedPdu }) ∨
    (s.recv.status = .inProgress ∧ sn ≠ s.recv.sn ∧ t = s.withRecv (s.recv.abort .wrongSn)) ∨
    (s.recv.status = .inProgress ∧ sn = s.recv.sn ∧ s.recv.offset.toNat + s.recv.takeLength data ≤ s.cfg.maxMsg ∧
      t = rxProgress (s.withRecv (s.recv.afterMatching s.cfg s.now data))) := by
  by_cases hp : s.recv.status = .inProgress
  · by_cases hs : sn = s.recv.sn
    · subst hs
      rw [rxConsecutive_matching hp] at h
      exact .inr (.inr ⟨hp, rfl, rxMatching_next h⟩)
    · rw [rxConsecutive_wrong hp hs] at h
      cases h; exact .inr (.inl ⟨hp, hs, rfl⟩)
  · rw [rxConsecutive_outside hp] at h
    cases h; exact .inl ⟨hp, rfl⟩

/-! ### Flow control -/

theorem takeFlowControl_outside {act : SendContext → SendContext} {s : State} (h : s.send.status ≠ .inProgress) :
    takeFlowControl act s = .next s := if_pos h

theorem takeFlowControl_inside {act : SendContext → SendContext} {s : State} (h : s.send.status = .inProgress) :
    takeFlowControl act s = .next (s.withSend (act (s.send.armBs s.cfg s.now))) := if_neg (by simp [h])

/-- What a flow-control frame of status `fs` does to a send context in progress, after the timer has been re-armed. -/
def SendContext.flowAct (c : SendContext) (maxWft : Nat) (fs : Nibble) (bs st : Byte) : SendContext :=
  if fs = fsOverflow then c.flowOverflow
  else if fs = fsWait then c.flowWait maxWft
  else if fs = fsContinue then c.flowContinue bs st
  else c

theorem rxFlowControl_eq (fs : Nibble) (bs st : Byte) (s : State) :
    rxFlowControl fs bs st s =
      if s.send.status = .inProgress then
        .next (s.withSend ((s.send.armBs s.cfg s.now).flowAct s.cfg.maxWft fs bs st))
      else .next s := by
  by_cases h : s.send.status = .inProgress
  · rw [if_pos h]; exact takeFlowControl_inside h
  · rw [if_neg h]; exact takeFlowControl_outside h

@[simp] theorem SendContext.flowAct_continue (c : SendContext) (w : Nat) (bs st : Byte) :
    c.flowAct w fsContinue bs st = c.flowContinue bs st := rfl

@[simp] theorem SendContext.flowAct_wait (c : SendContext) (w : Nat) (bs st : Byte) :
    c.flowAct w fsWait bs st = c.flowWait w := rfl

@[simp] theorem SendContext.flowAct_overflow (c : SendContext) (w : Nat) (bs st : Byte) :
    c.flowAct w fsOverflow bs st = c.flowOverflow := rfl

theorem SendContext.flowAct_reserved (c : SendContext) (w : Nat) {fs : Nibble} (bs st : Byte) (h : 3 ≤ fs.toNat) :
    c.flowAct w fs bs st = c := by
  have : fs ≠ fsContinue ∧ fs ≠ fsWait ∧ fs ≠ fsOverflow := by revert h; revert fs; decide
  rw [flowAct, if_neg this.2.2, if_neg this.2.1, if_neg this.1]

/-! ### SEND -/

theorem sendSingle_eq {n : Nat} {s : State} (h : n ≤ s.cfg.maxMsg) :
    sendSingle n s =
      if s.txOk then
        .next (((s.transmit (encodeSingle s.cfg.pad (s.send.buf.bytes 0 n))).withSend
          { s.send with status := .idle, result := .ok }).respond (.sent .retOk))
      else
        .next (((s.transmit (encodeSingle s.cfg.pad (s.send.buf.bytes 0 n))).withSend s.send.txFailed).respond
          (.sent .retError)) :=
  withBytes_read (by omega) _

theorem sendFirst_eq {n : Nat} {s : State} (h : 6 ≤ s.cfg.maxMsg) :
    sendFirst n s =
      if s.txOk then
        .next (((s.transmit (encodeFirst (BitVec.ofNat 12 n) (s.send.buf.bytes 0 6))).withSend
          (s.send.started s.cfg s.now)).respond (.sent .retOk))
      else
        .next (((s.transmit (encodeFirst (BitVec.ofNat 12 n) (s.send.buf.bytes 0 6))).withSend s.send.txFailed).respond
          (.sent .retError)) :=
  withBytes_read (by omega) _

theorem execSend_over {p : List Byte} {s : State} (h : s.cfg.maxMsg < p.length) :
    execSend p s = .next (s.respond (.sent .retOverflow)) := if_pos h

/-- The send context after the copy of a SEND (41_send.md R151). -/
def SendContext.afterCopy (c : SendContext) (p : List Byte) : SendContext := c.copied (c.buf.write 0 p) p.length

theorem execSend_short {p : List Byte} {s : State} (h : p.length ≤ 7) :
    execSend p s =
      if s.txOk then
        .next (((s.transmit (encodeSingle s.cfg.pad p)).withSend
          { s.send.afterCopy p with status := .idle, result := .ok }).respond (.sent .retOk))
      else
        .next (((s.transmit (encodeSingle s.cfg.pad p)).withSend (s.send.afterCopy p).txFailed).respond
          (.sent .retError)) := by
  have hm := s.cfg.maxMsg_ge
  rw [execSend, if_neg (by omega), withBuffer_write (by omega)]
  simp only [h, if_true]
  rw [sendSingle_eq (by simp only [State.withSend_cfg]; omega)]
  simp only [State.withSend_send, SendContext.copied_buf, Memory.bytes_write]
  rfl

theorem execSend_long {p : List Byte} {s : State} (h : 8 ≤ p.length) (hp : p.length ≤ s.cfg.maxMsg) :
    execSend p s =
      if s.txOk then
        .next (((s.transmit (encodeFirst (BitVec.ofNat 12 p.length) (p.take 6))).withSend
          ((s.send.afterCopy p).started s.cfg s.now)).respond (.sent .retOk))
      else
        .next (((s.transmit (encodeFirst (BitVec.ofNat 12 p.length) (p.take 6))).withSend
          (s.send.afterCopy p).txFailed).respond (.sent .retError)) := by
  have hm := s.cfg.maxMsg_ge
  rw [execSend, if_neg (by omega), withBuffer_write (by omega)]
  simp only [show ¬ p.length ≤ 7 by omega, if_false]
  rw [sendFirst_eq (by simp only [State.withSend_cfg]; omega)]
  have : (s.send.buf.write 0 p).bytes 0 6 = p.take 6 := by
    rw [Memory.bytes_write_zero _ _ _ _ (by omega)]; rfl
  simp only [State.withSend_send, SendContext.copied_buf, this]
  rfl

/-! ### POLL -/

theorem pollConsecutive_eq {s : State} (h : s.send.offset.toNat + s.send.chunkLength ≤ s.cfg.maxMsg) :
    pollConsecutive s =
      .next ((s.transmit (encodeConsecutive s.cfg.pad s.send.sn
          (s.send.buf.bytes s.send.offset.toNat s.send.chunkLength))).withSend
        (if s.txOk then s.send.advanced s.send.chunkLength s.cfg s.now else s.send.txFailed)) := by
  rw [pollConsecutive, withBytes_read h]
  by_cases ho : s.txOk = true <;> simp [ho]

theorem pollConsecutive_next {s t : State} (h : pollConsecutive s = .next t) :
    s.send.offset.toNat + s.send.chunkLength ≤ s.cfg.maxMsg ∧
      t = (s.transmit (encodeConsecutive s.cfg.pad s.send.sn
          (s.send.buf.bytes s.send.offset.toNat s.send.chunkLength))).withSend
        (if s.txOk then s.send.advanced s.send.chunkLength s.cfg s.now else s.send.txFailed) := by
  obtain ⟨data, hd, -⟩ := withBytes_next h
  have hle := (bufRead_some hd).1
  rw [pollConsecutive_eq hle] at h
  cases h; exact ⟨hle, rfl⟩

theorem pollSend_outside {s : State} (h : s.send.status ≠ .inProgress) : pollSend s = .next s := if_pos h

theorem pollSend_held {s : State} (h : s.send.status = .inProgress) (hm : s.send.maySend s.now = false) :
    pollSend s = .next (pollTimeoutBs s) := by
  rw [pollSend, if_neg (by simp [h])]; simp [hm]

theorem pollSend_sending {s : State} (h : s.send.status = .inProgress) (hm : s.send.maySend s.now = true) :
    pollSend s = andThen (pollConsecutive s) pollTimeoutBs := by
  rw [pollSend, if_neg (by simp [h])]; simp [hm]

/-- What the send half of POLL can do. -/
theorem pollSend_next {s t : State} (h : pollSend s = .next t) :
    (s.send.status ≠ .inProgress ∧ t = s) ∨
    (s.send.status = .inProgress ∧ s.send.maySend s.now = false ∧ t = pollTimeoutBs s) ∨
    (s.send.status = .inProgress ∧ s.send.maySend s.now = true ∧
      ∃ u, pollConsecutive s = .next u ∧ t = pollTimeoutBs u) := by
  by_cases hp : s.send.status = .inProgress
  · cases hm : s.send.maySend s.now with
    | false => rw [pollSend_held hp hm] at h; cases h; exact .inr (.inl ⟨hp, rfl, rfl⟩)
    | true =>
      rw [pollSend_sending hp hm] at h
      obtain ⟨u, hu, rfl⟩ := andThen_next h
      exact .inr (.inr ⟨hp, rfl, u, hu, rfl⟩)
  · rw [pollSend_outside hp] at h; cases h; exact .inl ⟨hp, rfl⟩

theorem pollTimeoutBs_passed {s : State} (h : after s.now s.send.timerBs = true) :
    pollTimeoutBs s = s.withSend (s.send.abort .timeoutBs) := if_pos h

theorem pollTimeoutBs_pending {s : State} (h : after s.now s.send.timerBs = false) : pollTimeoutBs s = s :=
  if_neg (by simp [h])

theorem pollRecv_passed {s : State} (hp : s.recv.status = .inProgress) (h : after s.now s.recv.timerCr = true) :
    pollRecv s = s.withRecv (s.recv.abort .timeoutCr) := if_pos ⟨hp, h⟩

theorem pollRecv_pending {s : State} (h : s.recv.status ≠ .inProgress ∨ after s.now s.recv.timerCr = false) :
    pollRecv s = s := if_neg (by rintro ⟨hp, ha⟩; rcases h with h | h <;> simp_all)

/-- The send context after the timeout test of POLL (41_send.md R161). -/
theorem pollTimeoutBs_eq (s : State) :
    pollTimeoutBs s = s.withSend (if after s.now s.send.timerBs then s.send.abort .timeoutBs else s.send) := by
  rw [pollTimeoutBs]; split <;> rfl

/-- The receive context after the timeout test of POLL (42_receive.md R198). -/
theorem pollRecv_eq (s : State) :
    pollRecv s = s.withRecv (if s.recv.status = .inProgress ∧ after s.now s.recv.timerCr = true
      then s.recv.abort .timeoutCr else s.recv) := by
  rw [pollRecv]; split <;> rfl

theorem execPoll_next {s t : State} (h : execPoll s = .next t) : ∃ u, pollSend s = .next u ∧ t = pollRecv u := by
  obtain ⟨u, hu, rfl⟩ := andThen_next h
  exact ⟨u, hu, rfl⟩

theorem execPoll_of_pollSend {s u : State} (h : pollSend s = .next u) : execPoll s = .next (pollRecv u) := by
  rw [execPoll, h]; rfl

/-! ### RECV -/

theorem execRecv_outside {cap : BitVec 16} {s : State} (h : s.recv.status ≠ .full) :
    execRecv cap s = .next (s.respond (.received .retNoData 0 [])) := if_pos h

theorem execRecv_full {cap : BitVec 16} {s : State} (h : s.recv.status = .full) (hs : s.recv.size.toNat ≤ s.cfg.maxMsg) :
    execRecv cap s = .next ((s.withRecv { s.recv with status := .idle }).respond
      (.received .retOk s.recv.actualLength (s.recv.buf.bytes 0 (s.recv.drainLength cap)))) := by
  rw [execRecv, if_neg (by simp [h]), withBytes_read (by simp only [RecvContext.drainLength]; omega)]

theorem execRecv_next {cap : BitVec 16} {s t : State} (h : execRecv cap s = .next t) :
    (s.recv.status ≠ .full ∧ t = s.respond (.received .retNoData 0 [])) ∨
    (s.recv.status = .full ∧ t = (s.withRecv { s.recv with status := .idle }).respond
      (.received .retOk s.recv.actualLength (s.recv.buf.bytes 0 (s.recv.drainLength cap)))) := by
  by_cases hf : s.recv.status = .full
  · rw [execRecv, if_neg (by simp [hf])] at h
    obtain ⟨data, hd, hk⟩ := withBytes_next h
    obtain ⟨-, rfl⟩ := bufRead_some hd
    cases hk; exact .inr ⟨hf, rfl⟩
  · rw [execRecv_outside hf] at h; cases h; exact .inl ⟨hf, rfl⟩

/-! ### The clock -/

/-- A deadline just armed has not passed (41_send.md R159): no period below 2^31 lies behind `now`. -/
theorem not_after_deadline (now : Time) {period : Nat} (h : period < 2147483648) :
    after now (deadline now period) = false := by
  have e : (now - deadline now period).toNat = (4294967296 - period) % 4294967296 := by
    rw [deadline, BitVec.toNat_sub, BitVec.toNat_add, BitVec.toNat_ofNat]
    have := now.isLt
    omega
  rw [after, e, decide_eq_false_iff_not]
  omega

/-! ### The step -/

theorem step_of_decode {s : State} {r : Request} {rest : List Request} {i : Instr} (h : s.pending = r :: rest)
    (hd : decode r.image = .ok i) : step s = exec i (s.latch r rest) := by
  rw [step, present, h]; simp only [perform, hd]

/-- What a step can do when it answers a next state. -/
theorem step_next {s t : State} (h : step s = .next t) :
    (s.pending = [] ∧ t = s) ∨
    ∃ r rest, s.pending = r :: rest ∧
      ((∃ i, decode r.image = .ok i ∧ exec i (s.latch r rest) = .next t) ∨
        ((decode r.image = .error .noOperation ∨ ∃ why, decode r.image = .error (.badFrame why)) ∧
          t = s.latch r rest)) := by
  rw [step, present] at h
  cases hp : s.pending with
  | nil => rw [hp] at h; cases h; exact .inl ⟨rfl, rfl⟩
  | cons r rest =>
    rw [hp] at h
    refine .inr ⟨r, rest, rfl, ?_⟩
    simp only [perform] at h
    cases hd : decode r.image with
    | ok i => rw [hd] at h; exact .inl ⟨i, rfl, h⟩
    | error e =>
      rw [hd] at h
      cases e with
      | noOperation => cases h; exact .inr ⟨.inl rfl, rfl⟩
      | multiHot => cases h
      | badFrame why => cases h; exact .inr ⟨.inr ⟨why, rfl⟩, rfl⟩

end Sys2Proof.Machine
end

