-- ==== Sys2Proof/Laws/PerInstr.lean ====
section
/-! SUPPORT. Statements made of every instruction, one lemma per constructor of Instr. -/

namespace Sys2Proof.Laws.DecodeEncode

/-- Decoding an image of a well-formed instruction gives the instruction back, with every operand. -/
def Statement (i : Instr) : Prop := i.wellFormed = true → decode (encode i) = .ok i

theorem sf (data : List Byte) : Statement (.sf data) := fun h =>
  decodeFrameImage_ok (decodeShape_encodeSingle true data (of_decide_eq_true h) (.inl rfl))

theorem ff (ffDl : BitVec 12) (data : List Byte) : Statement (.ff ffDl data) := fun h =>
  have h : 8 ≤ ffDl.toNat ∧ data.length = 6 := of_decide_eq_true h
  decodeFrameImage_ok (decodeShape_encodeFirst ffDl data h.1 h.2)

theorem cf (sn : Nibble) (data : List Byte) : Statement (.cf sn data) := fun h =>
  have h : 1 ≤ data.length ∧ data.length ≤ 7 := of_decide_eq_true h
  decodeFrameImage_ok (decodeShape_encodeConsecutive false sn data h.1 h.2)

theorem fcCts (bs st : Byte) : Statement (.fcCts bs st) := fun _ =>
  decodeFrameImage_ok (decodeShape_flowControl fsContinue bs st [] (by simp))

theorem fcWait (bs st : Byte) : Statement (.fcWait bs st) := fun _ =>
  decodeFrameImage_ok (decodeShape_flowControl fsWait bs st [] (by simp))

theorem fcOvflw (bs st : Byte) : Statement (.fcOvflw bs st) := fun _ =>
  decodeFrameImage_ok (decodeShape_flowControl fsOverflow bs st [] (by simp))

theorem fcRsvd (fs : Nibble) (bs st : Byte) : Statement (.fcRsvd fs bs st) := fun h =>
  (decodeFrameImage_ok (decodeShape_flowControl fs bs st [] (by simp))).trans
    (by rw [instrOfFrame_reserved (of_decide_eq_true h)])

theorem rsvdType (pci low : Nibble) (rest : List Byte) : Statement (.rsvdType pci low rest) := fun h => by
  have h : 4 ≤ pci.toNat ∧ 1 ≤ rest.length ∧ rest.length ≤ 7 := of_decide_eq_true h
  show decodeFrameImage (packNibbles pci low :: rest) = _
  rw [decodeFrameImage_unknown (decodeShape_unknown_of h.2.1 h.2.2 (by simpa using h.1))]
  simp

theorem init (sendId receiveId : Ident) : Statement (.init sendId receiveId) := fun _ => rfl

theorem send (payload : List Byte) : Statement (.send payload) := fun _ => rfl

theorem rx (raw : List Byte) : Statement (.rx raw) := fun _ => rfl

theorem poll : Statement .poll := fun _ => rfl

theorem recv (outCapacity : BitVec 16) : Statement (.recv outCapacity) := fun _ => rfl

end Sys2Proof.Laws.DecodeEncode
end

