-- ==== Sys2Proof/Laws/Safety.lean ====
section
/-! SUPPORT. The small laws of the definitions in Safety.lean: runs over clock values and requests, the "continue" attempts
of a reception, and sound buffers. -/

namespace Sys2Proof.Machine

@[simp] theorem execAt_nil (i : Instr) (s : State) : execAt i [] s = .next s := rfl

theorem execAt_cons {i : Instr} {clock : Time} {clocks : List Time} {s t : State}
    (h : exec i { s with now := clock } = .next t) : execAt i (clock :: clocks) s = execAt i clocks t := by
  rw [execAt, h]

@[simp] theorem serve_nil (s : State) : serve [] s = .next s := rfl

theorem serve_cons {r : Request} {rs : List Request} {s t : State} (h : step { s with pending := [r] } = .next t) :
    serve (r :: rs) s = serve rs t := by
  rw [serve, h]

/-- One more request adds its "continue" at the end of a block and nothing elsewhere. -/
theorem continueAttempts_concat (cfg : Config) (id : Ident) (requests : List Request) (r : Request) :
    continueAttempts cfg id (requests ++ [r]) = continueAttempts cfg id requests ++
      if requests.length % cfg.bsDefault = 0 then
        [{ id := id
           frame := encodeFlowControl cfg.pad fsContinue (BitVec.ofNat 8 cfg.bsDefault) cfg.stDefault
           ok := r.txOk }]
      else [] := by
  by_cases h : requests.length % cfg.bsDefault = 0 <;> simp [continueAttempts, List.zipIdx_append, h]

theorem Memory.Sound.nil (cfg : Config) : Memory.Sound cfg [] := ⟨⟨List.Pairwise.nil, by simp⟩, by simp⟩

theorem Memory.Sound.write {cfg : Config} {m : Memory} (h : Memory.Sound cfg m) {i : Nat} {bytes : List Byte}
    (hle : i + bytes.length ≤ cfg.maxMsg) : Memory.Sound cfg (m.write i bytes) :=
  ⟨Memory.wf_write h.wf _ _, Memory.below_write h.below _ _ hle⟩

end Sys2Proof.Machine
end

