-- ==== Sys2Proof/Tests/Slice0.lean ====
section
/-! SUPPORT. The model's own tests. Expected values come from spec/95_test_vectors.md (the vector is named beside each) and
from the encodings of spec/30_encoding.md; the witnesses show a state and operands that meet the hypotheses of the
statements of Certificates/Slice0/Obligations.lean. -/

namespace Sys2Proof.Tests

open Sys2Proof Sys2Proof.Machine

/-! ### Helpers -/

/-- A view of the next state, none where the instruction stopped. -/
def view {α : Type} (r : Result) (f : State → α) : Option α :=
  match r with
  | .next t => some (f t)
  | .fault _ => none
  | .refused _ => none

/-- CFG0 with MAX_MSG 64, MAX_WFT 0, BS_DEFAULT 2, ST_DEFAULT 5 and PAD. -/
def cfg64 : Config where
  maxMsg := 64
  bsDefault := 2
  stDefault := 5
  nBs := 100
  nCr := 100
  maxWft := 0
  pad := true

/-- After INIT 0x7E0, 0x7E8 at clock value `now`. -/
def fresh (now : Time) : State :=
  { State.initial Config.cfg0 0x7E0 0x7E8 [] [] with now := now }

/-- The same with the configuration `cfg64`. -/
def fresh64 (now : Time) : State := { State.initial cfg64 0x7E0 0x7E8 [] [] with now := now }

/-- The 10 bytes A0 .. A9. -/
def tenBytes : List Byte := [0xA0, 0xA1, 0xA2, 0xA3, 0xA4, 0xA5, 0xA6, 0xA7, 0xA8, 0xA9]

/-- V35's end state and then RX [30 08 00] @1003: a send of A0 .. A9 in progress with credit 8. -/
def sending (now : Time) : State :=
  { fresh now with send := { (fresh now).send with
      buf := Memory.cells 0 tenBytes, size := 10, offset := 6, sn := 1, bsCredit := 8, timerBs := 1103
      status := .inProgress } }

/-- A send of 20 zero bytes after one consecutive frame @5002, separation time 10 (V46). -/
def pacing (now : Time) : State :=
  { fresh now with send := { (fresh now).send with
      size := 20, offset := 13, sn := 2, bsCredit := 7, stMin := 10, timerBs := 5102, timerSt := 5002
      status := .inProgress } }

/-- V75's end state: a reception of 10 bytes in progress. -/
def receiving (now : Time) : State :=
  { fresh now with recv := { (fresh now).recv with
      buf := Memory.cells 0 (tenBytes.take 6), size := 10, offset := 6, sn := 1, bsCount := 8, timerCr := 1102
      status := .inProgress } }

/-- A reception of 27 bytes in progress of which one consecutive frame has come, one frame before the end of its block. -/
def blockEnd (now : Time) : State :=
  { fresh now with recv := { (fresh now).recv with
      size := 27, offset := 13, sn := 2, bsCount := 1, timerCr := 5102, status := .inProgress } }

/-- V85's end state: A0 .. A9 held. -/
def holding (now : Time) : State :=
  { fresh now with recv := { (fresh now).recv with
      buf := Memory.cells 0 tenBytes, size := 10, offset := 10, sn := 2, bsCount := 8, timerCr := 1106
      status := .full } }

/-! ### WellFormed refuses each ill-formed term -/

theorem test_wellFormed_sf_eight_bytes : (Instr.sf [1, 2, 3, 4, 5, 6, 7, 8]).wellFormed = false := by decide

theorem test_wellFormed_ff_below_eight : (Instr.ff 7 [1, 2, 3, 4, 5, 6]).wellFormed = false := by decide

theorem test_wellFormed_ff_five_bytes : (Instr.ff 8 [1, 2, 3, 4, 5]).wellFormed = false := by decide

theorem test_wellFormed_cf_empty : (Instr.cf 1 []).wellFormed = false := by decide

theorem test_wellFormed_cf_eight_bytes : (Instr.cf 1 [1, 2, 3, 4, 5, 6, 7, 8]).wellFormed = false := by decide

theorem test_wellFormed_fcRsvd_named_status : (Instr.fcRsvd 2 0 0).wellFormed = false := by decide

theorem test_wellFormed_rsvdType_known_type : (Instr.rsvdType 3 0 [0]).wellFormed = false := by decide

theorem test_wellFormed_rsvdType_no_bytes : (Instr.rsvdType 4 0 []).wellFormed = false := by decide

theorem test_wellFormed_rsvdType_eight_bytes :
    (Instr.rsvdType 4 0 [1, 2, 3, 4, 5, 6, 7, 8]).wellFormed = false := by decide

/-! ### Decoding, one word of each instruction (30_encoding.md R80 to R83, R94, R97, R110) -/

theorem test_decode_sf : decode (.frame [0b00000011, 0x11, 0x22, 0x33]) = .ok (.sf [0x11, 0x22, 0x33]) := by decide

theorem test_decode_ff : decode (.frame [0b00011111, 0b11111110, 1, 2, 3, 4, 5, 6]) = .ok (.ff 4094 [1, 2, 3, 4, 5, 6]) := by
  decide

theorem test_decode_cf : decode (.frame [0b00101111, 0xEB]) = .ok (.cf 15 [0xEB]) := by decide

theorem test_decode_fcCts : decode (.frame [0b00110000, 0x08, 0x0A]) = .ok (.fcCts 8 10) := by decide

theorem test_decode_fcWait : decode (.frame [0b00110001, 0, 0, 0, 0, 0, 0, 0]) = .ok (.fcWait 0 0) := by decide

theorem test_decode_fcOvflw : decode (.frame [0b00110010, 0, 0]) = .ok (.fcOvflw 0 0) := by decide

theorem test_decode_fcRsvd_33 : decode (.frame [0b00110011, 1, 2]) = .ok (.fcRsvd 3 1 2) := by decide

theorem test_decode_fcRsvd_3F : decode (.frame [0b00111111, 1, 2]) = .ok (.fcRsvd 15 1 2) := by decide

theorem test_decode_rsvdType_4 : decode (.frame [0b01001010, 0]) = .ok (.rsvdType 4 10 [0]) := by decide

theorem test_decode_rsvdType_F : decode (.frame [0b11110000, 1, 2, 3, 4, 5, 6, 7]) = .ok (.rsvdType 15 0 [1, 2, 3, 4, 5, 6, 7]) := by
  decide

theorem test_decode_init : decode (.command { op := 0b00001, sendId := 1, receiveId := 2 }) = .ok (.init 1 2) := by decide

theorem test_decode_send : decode (.command { op := 0b00010, payload := [0xDE, 0xAD] }) = .ok (.send [0xDE, 0xAD]) := by decide

theorem test_decode_rx : decode (.command { op := 0b00100, raw := [0x40, 0] }) = .ok (.rx [0x40, 0]) := by decide

theorem test_decode_poll : decode (.command { op := 0b01000 }) = .ok .poll := by decide

theorem test_decode_recv : decode (.command { op := 0b10000, outCapacity := 64 }) = .ok (.recv 64) := by decide

theorem test_decode_two_operations : decode (.command { op := 0b00011 }) = .error .multiHot := by decide

theorem test_decode_no_operation : decode (.command { op := 0 }) = .error .noOperation := by decide

/-- The table's numbering: byte 0 of the frame is the least significant byte. -/
theorem test_decodeTableWord_cf : decodeTableWord 8 0x21 = some (.cf 1 [0, 0, 0, 0, 0, 0, 0]) := by decide

theorem test_decodeTableWord_ff : decodeTableWord 16 0x0A10 = some (.ff 10 [0, 0, 0, 0, 0, 0]) := by decide

theorem test_decodeTableWord_poll : decodeTableWord 5 0b01000 = some .poll := by decide

/-! ### The codec -/

/-- D9v to D11v, D13v to D15v, D30v: the lengths that reject. -/
theorem test_decodeFrame_rejects :
    decodeFrame 4095 [0x07, 1, 2, 3, 4, 5, 6] = .reject .singleLength ∧
    decodeFrame 4095 [0x08, 1, 2, 3, 4, 5, 6, 7] = .reject .singleLength ∧
    decodeFrame 4095 [0x10, 0x0A, 1, 2, 3, 4, 5] = .reject .firstNotEightBytes ∧
    decodeFrame 4095 [0x10, 0x07, 1, 2, 3, 4, 5, 6] = .reject .firstTotalBelowEight ∧
    decodeFrame 4095 [0x30, 0x08] = .reject .flowControlLength ∧
    decodeFrame 4095 [0x00] = .reject .tooShort ∧
    decodeFrame 4095 [1, 2, 3, 4, 5, 6, 7, 8, 9] = .reject .tooLong := by decide

/-- D18v, D19v: the comparison with MAX_MSG. -/
theorem test_decodeFrame_overflow :
    decodeFrame 64 [0x10, 0x41, 0, 1, 2, 3, 4, 5] = .firstOverflow 65 ∧
    decodeFrame 64 [0x10, 0x40, 0, 1, 2, 3, 4, 5] = .first 64 [0, 1, 2, 3, 4, 5] := by decide

/-- V1, V7, V8, V10, V12, V14, V15. -/
theorem test_encoders :
    encodeSingle true [] = [0, 0, 0, 0, 0, 0, 0, 0] ∧
    encodeFirst 4095 [0x05, 0x12, 0x1F, 0x2C, 0x39, 0x46] = [0x1F, 0xFF, 0x05, 0x12, 0x1F, 0x2C, 0x39, 0x46] ∧
    encodeConsecutive true 1 [0xA6, 0xA7, 0xA8, 0xA9] = [0x21, 0xA6, 0xA7, 0xA8, 0xA9, 0, 0, 0] ∧
    encodeConsecutive false 15 [0xEB] = [0x2F, 0xEB] ∧
    encodeFlowControl false 0 2 5 = [0x30, 0x02, 0x05] ∧
    encodeFlowControl false 0 2 200 = [0x30, 0x02, 0x7F] ∧
    encodeFlowControl true 2 0 0 = [0x32, 0, 0, 0, 0, 0, 0, 0] := by decide

/-- V22 to V27. -/
theorem test_stDecode : [0x00, 0x7F, 0x80, 0xF0, 0xF1, 0xF9, 0xFA, 0xFF].map stDecode = [0, 127, 0, 0, 1, 1, 0, 0] := by decide

/-- A1v, A4v to A7v. -/
theorem test_after :
    after 7 7 = false ∧ after 0x00000005 0xFFFFFFFB = true ∧ after 0xFFFFFFFB 0x00000005 = false ∧
    after 0x80000006 7 = true ∧ after 0x80000007 7 = false := by decide

/-! ### Instructions, one step each -/

/-- V70. -/
theorem test_exec_sf : view (exec (.sf [0x11, 0x22, 0x33]) (fresh 5)) (fun t =>
    (t.recv.status, t.recv.size, t.recv.offset, t.recv.buf.bytes 0 3, t.trace)) =
    some (.full, 3, 3, [0x11, 0x22, 0x33], []) := by decide

/-- V74: a single frame within a reception. -/
theorem test_exec_sf_preempts : view (exec (.sf [9, 8, 7]) (receiving 101)) (fun t =>
    (t.recv.status, t.recv.result, t.recv.size, t.recv.sn, t.recv.bsCount, t.recv.timerCr)) =
    some (.full, .unexpectedPdu, 3, 1, 8, 1102) := by decide

/-- V75. -/
theorem test_exec_ff : view (exec (.ff 10 (tenBytes.take 6)) (fresh 1002)) (fun t => (t.recv, t.trace)) =
    some ((receiving 1002).recv, [{ id := 0x7E0, frame := [0x30, 0x08, 0x00], ok := true }]) := by decide

/-- V78, with PAD. -/
theorem test_exec_ff_oversize : view (exec (.ff 65 [0, 1, 2, 3, 4, 5]) (fresh64 10)) (fun t =>
    (t.recv.status, t.recv.result, t.recv.size, t.trace)) =
    some (.idle, .bufferOverflow, 0, [{ id := 0x7E0, frame := [0x32, 0, 0, 0, 0, 0, 0, 0], ok := true }]) := by decide

/-- V86: the zero bytes of a padded last frame are not taken. -/
theorem test_exec_cf_last : view (exec (.cf 1 [0xA6, 0xA7, 0xA8, 0xA9, 0, 0, 0]) (receiving 1006)) (fun t =>
    (t.recv, t.trace.length)) = some ((holding 1006).recv, 0) := by decide

/-- V94, with CFG0: the end of a block reloads the count and sends a "continue". -/
theorem test_exec_cf_block_end : view (exec (.cf 2 [0x0E, 0x0F, 0x10, 0x11, 0x12, 0x13, 0x14]) (blockEnd 5008)) (fun t =>
    (t.recv.offset, t.recv.sn, t.recv.bsCount, t.trace.map (·.frame))) =
    some (20, 3, 8, [[0x30, 0x08, 0x00]]) := by decide

/-- V57, from a send in progress. -/
theorem test_exec_fcCts : view (exec (.fcCts 2 0xF5) (sending 1050)) (fun t =>
    (t.send.bsCredit, t.send.stMin, t.send.waitCount, t.send.timerBs, t.send.status)) =
    some (2, 1, 0, 1150, .inProgress) := by decide

/-- V64: a "continue" outside a send. -/
theorem test_exec_fcCts_idle : view (exec (.fcCts 8 0) (fresh 5)) (fun t => t) = some (fresh 5) := by decide

/-- V62. -/
theorem test_exec_fcWait : view (exec (.fcWait 0 0) (sending 1050)) (fun t =>
    (t.send.waitCount, t.send.timerBs, t.send.status, t.send.bsCredit)) = some (1, 1150, .inProgress, 8) := by decide

/-- V68: MAX_WFT 0. -/
theorem test_exec_fcWait_overrun : view (exec (.fcWait 0 0) { sending 1050 with cfg := cfg64 }) (fun t =>
    (t.send.waitCount, t.send.status, t.send.result)) = some (1, .error, .wftOverrun) := by decide

/-- V61. -/
theorem test_exec_fcOvflw : view (exec (.fcOvflw 0 0) (sending 1005)) (fun t =>
    (t.send.status, t.send.result, t.send.timerBs)) = some (.error, .bufferOverflow, 1105) := by decide

/-- V60: only the timer changes. -/
theorem test_exec_fcRsvd : view (exec (.fcRsvd 5 0xFF 0xFF) (sending 1040)) (fun t => t.send) =
    some { (sending 1040).send with timerBs := 1140 } := by decide

/-- 30_encoding.md R97. -/
theorem test_exec_rsvdType : view (exec (.rsvdType 15 0 [1, 2, 3]) (sending 9)) (fun t => t) = some (sending 9) := by decide

/-- V121. -/
theorem test_exec_init : view (exec (.init 1 2) (sending 9)) (fun t =>
    (t.send.id, t.send.status, t.send.size, t.send.timerBs, t.recv.id)) = some (1, .idle, 0, 0, 2) := by decide

/-- V31. -/
theorem test_exec_send_short : view (exec (.send [0x11, 0x22, 0x33]) (fresh 0)) (fun t =>
    (t.response, t.send.status, t.send.size, t.send.offset, t.trace)) =
    some (.sent .retOk, .idle, 3, 0, [{ id := 0x7E0, frame := [0x03, 0x11, 0x22, 0x33], ok := true }]) := by decide

/-- V35. -/
theorem test_exec_send_long : view (exec (.send tenBytes) (fresh 1000)) (fun t => (t.response, t.send, t.trace.map (·.frame))) =
    some (.sent .retOk, { (sending 1000).send with bsCredit := 0, timerBs := 1100 },
      [[0x10, 0x0A, 0xA0, 0xA1, 0xA2, 0xA3, 0xA4, 0xA5]]) := by decide

/-- D31v: RX of an unknown type. -/
theorem test_exec_rx_unknown : view (exec (.rx [0x40, 0x00]) (receiving 3)) (fun t => t) = some (receiving 3) := by decide

/-- V87. -/
theorem test_exec_rx_wrong_sn : view (exec (.rx [0x22, 0xA6, 0xA7, 0xA8, 0xA9]) (receiving 1006)) (fun t =>
    (t.recv.status, t.recv.result, t.recv.offset, t.recv.sn, t.recv.timerCr)) = some (.idle, .wrongSn, 6, 1, 1102) := by decide

/-- V43. -/
theorem test_exec_poll_sends : view (exec .poll (sending 1005)) (fun t => (t.send, t.trace)) =
    some ({ (sending 1005).send with
        status := .idle, offset := 10, sn := 2, bsCredit := 7, timerBs := 1105, timerSt := 1005 },
      [{ id := 0x7E0, frame := [0x21, 0xA6, 0xA7, 0xA8, 0xA9], ok := true }]) := by decide

/-- V47: the second frame of a paced transfer. -/
theorem test_exec_poll_paced : view (exec .poll (pacing 5013)) (fun t =>
    (t.send.status, t.send.offset, t.send.sn, t.send.timerSt)) = some (.idle, 20, 3, 5013) := by decide

/-- V111: RECV reports the length of the message, not of the copy. -/
theorem test_exec_recv : view (exec (.recv 4) (holding 1007)) (fun t => (t.response, t.recv.status, t.recv.size)) =
    some (.received .retOk 10 [0xA0, 0xA1, 0xA2, 0xA3], .idle, 10) := by decide

/-- V115. -/
theorem test_exec_recv_nothing : view (exec (.recv 64) (receiving 1007)) (fun t => (t.response, t.recv)) =
    some (.received .retNoData 0 [], (receiving 1007).recv) := by decide

/-- One step from reset on a table word: POLL runs as the first instruction. -/
theorem test_step_fetches : view (step (State.reset.withFetchWord 5 0b01000)) (fun t => t) = some State.reset := by decide

/-- V42: a deadline armed near the wrap of the clock. -/
theorem test_deadline_wraps : deadline 0xFFFFFFF0 100 = 0x00000054 := by decide

/-! ### Witnesses: each shows a state and operands that meet the hypotheses of the statement it names, one for each clause
of it, at the boundaries of the clause's range -/

theorem sound_ten : Memory.Sound Config.cfg0 (Memory.cells 0 tenBytes) := ⟨by decide, by decide⟩

theorem sound_six : Memory.Sound Config.cfg0 (Memory.cells 0 (tenBytes.take 6)) := ⟨by decide, by decide⟩

theorem fresh_send_inv : (fresh 0).send.Inv Config.cfg0 where
  offset_le_size := by decide
  size_le_maxMsg := by decide
  size_ge := nofun
  offset_ge := nofun
  offset_lt_size := nofun
  offset_whole := nofun
  sn_counts := nofun
  stMin_le := by decide
  waitCount_le := by decide
  waitCount_tolerated := nofun
  result_inProgress := nofun
  result_mem := by decide
  buf_sound := Memory.Sound.nil _

theorem fresh_recv_inv : (fresh 0).recv.Inv Config.cfg0 where
  offset_le_size := by decide
  size_le_maxMsg := by decide
  size_ge := nofun
  offset_ge := nofun
  offset_lt_size := nofun
  bsCount_ge := nofun
  bsCount_le := nofun
  full_whole := nofun
  result_mem := by decide
  buf_sound := Memory.Sound.nil _

theorem inv_sending_zero : (sending 0).Inv where
  send := {
    offset_le_size := by decide
    size_le_maxMsg := by decide
    size_ge := by decide
    offset_ge := by decide
    offset_lt_size := by decide
    offset_whole := by decide
    sn_counts := by decide
    stMin_le := by decide
    waitCount_le := by decide
    waitCount_tolerated := by decide
    result_inProgress := by decide
    result_mem := by decide
    buf_sound := sound_ten }
  recv := fresh_recv_inv

theorem witness_inv_sending (now : Time) : (sending now).Inv := ⟨inv_sending_zero.send, inv_sending_zero.recv⟩

theorem inv_pacing_zero : (pacing 0).Inv where
  send := {
    offset_le_size := by decide
    size_le_maxMsg := by decide
    size_ge := by decide
    offset_ge := by decide
    offset_lt_size := by decide
    offset_whole := by decide
    sn_counts := by decide
    stMin_le := by decide
    waitCount_le := by decide
    waitCount_tolerated := by decide
    result_inProgress := by decide
    result_mem := by decide
    buf_sound := Memory.Sound.nil _ }
  recv := fresh_recv_inv

theorem witness_inv_pacing (now : Time) : (pacing now).Inv := ⟨inv_pacing_zero.send, inv_pacing_zero.recv⟩

theorem inv_receiving_zero : (receiving 0).Inv where
  send := fresh_send_inv
  recv := {
    offset_le_size := by decide
    size_le_maxMsg := by decide
    size_ge := by decide
    offset_ge := by decide
    offset_lt_size := by decide
    bsCount_ge := by decide
    bsCount_le := by decide
    full_whole := nofun
    result_mem := by decide
    buf_sound := sound_six }

theorem witness_inv_receiving (now : Time) : (receiving now).Inv := ⟨inv_receiving_zero.send, inv_receiving_zero.recv⟩

theorem inv_blockEnd_zero : (blockEnd 0).Inv where
  send := fresh_send_inv
  recv := {
    offset_le_size := by decide
    size_le_maxMsg := by decide
    size_ge := by decide
    offset_ge := by decide
    offset_lt_size := by decide
    bsCount_ge := by decide
    bsCount_le := by decide
    full_whole := nofun
    result_mem := by decide
    buf_sound := Memory.Sound.nil _ }

theorem witness_inv_blockEnd (now : Time) : (blockEnd now).Inv := ⟨inv_blockEnd_zero.send, inv_blockEnd_zero.recv⟩

theorem inv_holding_zero : (holding 0).Inv where
  send := fresh_send_inv
  recv := {
    offset_le_size := by decide
    size_le_maxMsg := by decide
    size_ge := nofun
    offset_ge := nofun
    offset_lt_size := nofun
    bsCount_ge := nofun
    bsCount_le := nofun
    full_whole := by decide
    result_mem := by decide
    buf_sound := sound_ten }

theorem witness_inv_holding (now : Time) : (holding now).Inv := ⟨inv_holding_zero.send, inv_holding_zero.recv⟩

theorem witness_DecodeEncodeRoundTrip :
    (Instr.sf []).wellFormed = true ∧ (Instr.sf [1, 2, 3, 4, 5, 6, 7]).wellFormed = true ∧
    (Instr.ff 8 [1, 2, 3, 4, 5, 6]).wellFormed = true ∧ (Instr.ff 4095 [1, 2, 3, 4, 5, 6]).wellFormed = true ∧
    (Instr.cf 0 [1]).wellFormed = true ∧ (Instr.cf 15 [1, 2, 3, 4, 5, 6, 7]).wellFormed = true ∧
    (Instr.fcRsvd 3 0 0).wellFormed = true ∧ (Instr.rsvdType 4 0 [1]).wellFormed = true ∧
    (Instr.rsvdType 15 15 [1, 2, 3, 4, 5, 6, 7]).wellFormed = true := by decide

theorem witness_DecoderYieldsWellFormed : ∃ i, decode (.frame [0x2F, 0xEB]) = .ok i := ⟨_, rfl⟩

theorem witness_FrameDecoderVerdicts_lengths :
    ([0x03] : List Byte).length < 2 ∧ 8 < ([0, 1, 2, 3, 4, 5, 6, 7, 8] : List Byte).length ∧
    2 ≤ ([0x00, 0x00] : List Byte).length ∧ ([0x07, 1, 2, 3, 4, 5, 6, 7] : List Byte).length ≤ 8 := by decide

theorem witness_FrameDecoderVerdicts_rows :
    ((0x07 : Byte).toNat / 16 = 0 ∧ ([0x07, 1, 2, 3, 4, 5, 6] : List Byte).length - 1 < (0x07 : Byte).toNat % 16) ∧
    ((0x07 : Byte).toNat / 16 = 0 ∧ (0x07 : Byte).toNat % 16 ≤ ([0x07, 1, 2, 3, 4, 5, 6, 7] : List Byte).length - 1) ∧
    ((0x10 : Byte).toNat / 16 = 1 ∧ ([0x10, 8, 1, 2, 3, 4, 5] : List Byte).length ≠ 8) ∧
    ((0x10 : Byte).toNat / 16 = 1 ∧ ([0x10, 8, 1, 2, 3, 4, 5, 6] : List Byte).length = 8 ∧
      (7 : BitVec 12).toNat = 256 * ((0x10 : Byte).toNat % 16) + (7 : Byte).toNat ∧ (7 : BitVec 12).toNat < 8 ∧
      (64 : BitVec 12).toNat = 256 * ((0x10 : Byte).toNat % 16) + (64 : Byte).toNat ∧ 8 ≤ (64 : BitVec 12).toNat ∧
      (64 : BitVec 12).toNat ≤ 64 ∧
      (65 : BitVec 12).toNat = 256 * ((0x10 : Byte).toNat % 16) + (65 : Byte).toNat ∧ 64 < (65 : BitVec 12).toNat) ∧
    ((0x2F : Byte).toNat / 16 = 2 ∧ (15 : Nibble).toNat = (0x2F : Byte).toNat % 16) ∧
    ((0x30 : Byte).toNat / 16 = 3 ∧ ([0x30, 0x08] : List Byte).length = 2) ∧
    ((0x3F : Byte).toNat / 16 = 3 ∧ (15 : Nibble).toNat = (0x3F : Byte).toNat % 16) ∧
    4 ≤ (0x40 : Byte).toNat / 16 ∧ 4 ≤ (0xFF : Byte).toNat / 16 := by decide

/-- The boundary codes of the four ranges of `SeparationTimeDecodes`. -/
theorem witness_SeparationTimeDecodes :
    (0x7F : Byte).toNat ≤ 0x7F ∧ (0xF1 ≤ (0xF1 : Byte).toNat ∧ (0xF9 : Byte).toNat ≤ 0xF9) ∧
    (0x80 ≤ (0x80 : Byte).toNat ∧ (0xF0 : Byte).toNat ≤ 0xF0) ∧ 0xFA ≤ (0xFA : Byte).toNat := by decide

theorem witness_SeparationTimeEncodes : stEncode 0 = 0 ∧ stEncode 127 = 127 ∧ stEncode 128 = 127 := by decide

theorem witness_CodecRoundTrips :
    ([] : List Byte).length ≤ 7 ∧ ([1, 2, 3, 4, 5, 6, 7] : List Byte).length ≤ 7 ∧ 8 ≤ (8 : BitVec 12).toNat ∧
    ([1, 2, 3, 4, 5, 6] : List Byte).length = 6 ∧ 1 ≤ ([1] : List Byte).length := by decide

theorem witness_BufferAccessesTouchOnlyTheirWindow :
    5 + ([1, 2, 3] : List Byte).length ≤ 8 ∧ 8 < 6 + ([1, 2, 3] : List Byte).length ∧ 5 + 3 ≤ 8 ∧ 8 < 6 + 3 ∧
    Memory.wf (Memory.cells 0 tenBytes) := by decide

theorem witness_SendOverLengthChangesNothing : (fresh64 0).cfg.maxMsg < (List.replicate 65 (0 : Byte)).length := by decide

theorem witness_SendShortMessage :
    ([] : List Byte).length ≤ 7 ∧ ([1, 2, 3, 4, 5, 6, 7] : List Byte).length ≤ 7 ∧ (fresh 0).txOk = true ∧
    ({ fresh 0 with txOk := false } : State).txOk = false := by decide

theorem witness_SendLongMessage :
    (8 ≤ (List.replicate 8 (0 : Byte)).length ∧ (List.replicate 8 (0 : Byte)).length ≤ (fresh64 0).cfg.maxMsg) ∧
    (8 ≤ (List.replicate 64 (0 : Byte)).length ∧ (List.replicate 64 (0 : Byte)).length ≤ (fresh64 0).cfg.maxMsg) ∧
    (fresh64 0).txOk = true ∧ ({ fresh64 0 with txOk := false } : State).txOk = false := by decide

theorem witness_SendStoresThePayload : (List.replicate 64 (0 : Byte)).length ≤ (fresh64 0).cfg.maxMsg := by decide

/-- Without a separation time, the last frame of its message. -/
theorem witness_PollSendsOneConsecutiveFrame_last :
    (sending 1005).Inv ∧ (sending 1005).send.status = .inProgress ∧ 0 < (sending 1005).send.bsCredit.toNat ∧
    (sending 1005).send.stMin = 0 ∧ (sending 1005).txOk = true :=
  ⟨witness_inv_sending _, rfl, by decide, rfl, rfl⟩

/-- With a separation time of 10 ms, 11 ms after the last frame. -/
theorem witness_PollSendsOneConsecutiveFrame_paced :
    (pacing 5013).Inv ∧ (pacing 5013).send.status = .inProgress ∧ 0 < (pacing 5013).send.bsCredit.toNat ∧
    after (pacing 5013).now ((pacing 5013).send.timerSt + (pacing 5013).send.stMin.setWidth 32) = true ∧
    (pacing 5013).txOk = true :=
  ⟨witness_inv_pacing _, rfl, by decide, by decide, rfl⟩

/-- Before and after the flow-control deadline. -/
theorem witness_PollTransmitFailureIsFatal :
    ({ sending 1103 with txOk := false } : State).Inv ∧ (sending 1103).send.status = .inProgress ∧
    0 < (sending 1103).send.bsCredit.toNat ∧ (sending 1103).send.stMin = 0 ∧
    after (sending 1103).now (sending 1103).send.timerBs = false ∧
    after (sending 1104).now (sending 1104).send.timerBs = true :=
  ⟨⟨(witness_inv_sending 1103).send, (witness_inv_sending 1103).recv⟩, rfl, by decide, rfl, by decide, by decide⟩

/-- No credit; and credit with the pacing closed, the clock exactly 10 ms after the last frame. -/
theorem witness_PollWithoutCreditOnlyTimesOut :
    ({ (sending 1103).send with bsCredit := 0 } : SendContext).status = .inProgress ∧
    (pacing 5012).send.status = .inProgress ∧ (pacing 5012).send.stMin ≠ 0 ∧
    after (pacing 5012).now ((pacing 5012).send.timerSt + (pacing 5012).send.stMin.setWidth 32) = false := by decide

/-- On the deadline and one past it; and outside a reception. -/
theorem witness_PollReceiveHalf :
    (receiving 1102).Inv ∧ (receiving 1102).recv.status = .inProgress ∧
    after (receiving 1102).now (receiving 1102).recv.timerCr = false ∧
    after (receiving 1103).now (receiving 1103).recv.timerCr = true ∧ (receiving 1102).send.status ≠ .inProgress ∧
    (holding 1107).Inv ∧ (holding 1107).recv.status ≠ .inProgress :=
  ⟨witness_inv_receiving _, rfl, by decide, by decide, by decide, witness_inv_holding _, by decide⟩

theorem witness_PollOutsideTransfersDoesNothing :
    (holding 0).send.status ≠ .inProgress ∧ (holding 0).recv.status ≠ .inProgress := by decide

theorem witness_ContinueLoadsCreditAndPacing : (sending 1003).send.status = .inProgress := by decide

theorem witness_WaitFrameCountsAndRearms : (sending 1050).Inv ∧ (sending 1050).send.status = .inProgress :=
  ⟨witness_inv_sending _, rfl⟩

theorem witness_OverflowFrameAbortsTheSend : (sending 1005).send.status = .inProgress := by decide

/-- The last wait frame that is tolerated and the one that aborts (MAX_WFT 1; MAX_WFT 0 aborts at the first); and a send
whose count is not 0, for the clauses on its restart. -/
theorem witness_WaitFramesAreToleratedUpToTheMaximum :
    ((sending 1003).send.status = .inProgress ∧ (sending 1003).send.waitCount = 0) ∧
    ([] : List Time).length < (sending 1003).cfg.maxWft ∧ ([1050] : List Time).length = (sending 1003).cfg.maxWft ∧
    ([] : List Time).length = cfg64.maxWft ∧
    (let s : State := { sending 1060 with send := { (sending 1060).send with waitCount := 1 } }
     s.send.status = .inProgress ∧ s.send.waitCount ≠ 0 ∧ 8 ≤ tenBytes.length ∧ tenBytes.length ≤ s.cfg.maxMsg ∧
      s.txOk = true) := by decide

theorem witness_ReservedFlowStatusOnlyRearms :
    3 ≤ (3 : Nibble).toNat ∧ 3 ≤ (15 : Nibble).toNat ∧ (sending 1040).send.status = .inProgress := by decide

theorem witness_FlowControlOutsideASendIsIgnored :
    (fresh 5).send.status ≠ .inProgress ∧
    ({ (sending 5).send with status := .error } : SendContext).status ≠ .inProgress := by decide

theorem witness_SingleFrameIsAlwaysAccepted :
    ([] : List Byte).length ≤ 7 ∧ ([1, 2, 3, 4, 5, 6, 7] : List Byte).length ≤ 7 ∧
    (receiving 101).recv.status = .inProgress ∧ (holding 101).recv.status ≠ .inProgress := by decide

theorem witness_FirstFrameStartsAReception :
    ([1, 2, 3, 4, 5, 6] : List Byte).length = 6 ∧ (64 : BitVec 12).toNat ≤ (fresh64 0).cfg.maxMsg ∧
    (receiving 101).recv.status = .inProgress ∧ (holding 101).recv.status ≠ .inProgress := by decide

theorem witness_OversizeFirstFrameIsRefused : (fresh64 0).cfg.maxMsg < (65 : BitVec 12).toNat := by decide

theorem witness_ConsecutiveFrameOutsideAReception :
    (fresh 0).recv.status ≠ .inProgress ∧ (holding 0).recv.status ≠ .inProgress := by decide

theorem witness_WrongSequenceNumberAbortsTheReception :
    (receiving 1006).recv.status = .inProgress ∧ (2 : Nibble) ≠ (receiving 1006).recv.sn ∧
    (0 : Nibble) ≠ (receiving 1006).recv.sn := by decide

/-- A frame in the middle of a block, the last frame of a block, and the last frame of a message, with surplus bytes. -/
theorem witness_ExpectedConsecutiveFrameAdvances :
    (receiving 1003).Inv ∧ (receiving 1003).recv.status = .inProgress ∧ 1 ≤ ([0xA6] : List Byte).length ∧
    1 < (receiving 1003).recv.bsCount.toNat ∧
    (blockEnd 5008).Inv ∧ (blockEnd 5008).recv.status = .inProgress ∧
    ([1, 2, 3, 4, 5, 6, 7] : List Byte).length ≤ 7 ∧ (blockEnd 5008).recv.bsCount.toNat = 1 ∧
    (receiving 1003).recv.size.toNat - (receiving 1003).recv.offset.toNat < ([1, 2, 3, 4, 5, 6, 7] : List Byte).length :=
  ⟨witness_inv_receiving _, rfl, by decide, by decide, witness_inv_blockEnd _, rfl, by decide, by decide, by decide⟩

theorem witness_RxRunsTheDecodedFrame :
    (∃ i, decode (.frame [0x21, 0xA6]) = .ok i) ∧ ∃ why, decode (.frame [0x30, 0x08]) = .error why := ⟨⟨_, rfl⟩, ⟨_, rfl⟩⟩

theorem witness_MalformedFramesAreDropped :
    4 ≤ (0x40 : Byte).toNat / 16 ∧ 4 ≤ (0xFF : Byte).toNat / 16 ∧ ([0x01] : List Byte).length < 2 ∧
    8 < ([1, 2, 3, 4, 5, 6, 7, 8, 9] : List Byte).length := by decide

theorem witness_RxAlwaysCompletes : (receiving 1006).Inv := witness_inv_receiving _

theorem witness_RecvDrainsAHeldMessage : (holding 1007).Inv ∧ (holding 1007).recv.status = .full :=
  ⟨witness_inv_holding _, rfl⟩

theorem witness_RecvWithoutAMessage : (receiving 0).recv.status ≠ .full := by decide

/-- A POLL request. -/
def pollRequest : Request := { image := .command { op := 0b01000 } }

theorem witness_StepRunsTheDecodedInstruction :
    ({ sending 0 with pending := [pollRequest] } : State).pending = pollRequest :: [] ∧
    decode pollRequest.image = .ok .poll := ⟨rfl, rfl⟩

theorem witness_StepWithoutAnInstruction :
    (fresh 0).pending = [] ∧ decode (.command { op := 0 }) = .error .noOperation ∧
    decode (.frame [0x30, 0x08]) = .error (.badFrame .flowControlLength) ∧
    (0b00011 : BitVec 5) ∉ [0b00000, 0b00001, 0b00010, 0b00100, 0b01000, (0b10000 : BitVec 5)] := by decide

theorem witness_EveryStepKeepsTheInvariant :
    ({ sending 0 with pending := [pollRequest] } : State).Inv ∧
    ∃ t, step { sending 0 with pending := [pollRequest] } = .next t :=
  ⟨⟨(witness_inv_sending 0).send, (witness_inv_sending 0).recv⟩, ⟨_, rfl⟩⟩

/-- A state reached by two presented steps, a send in progress. -/
theorem witness_PositionsStayWithinTheBuffers : ∃ t, Reachable t ∧ t.send.status = .inProgress ∧ t.send.offset = 6 := by
  have h0 := Reachable.initial Config.cfg0 0x7E0 0x7E8 [] [] (Memory.Sound.nil _) (Memory.Sound.nil _)
  have h1 := h0.present [{ image := .command { op := 0b00010, payload := tenBytes } }]
  exact ⟨_, h1.step rfl, rfl, rfl⟩

theorem witness_TheBlockNeverStops : (sending 0).Inv ∧ Serialised pollRequest := ⟨witness_inv_sending 0, by decide⟩

theorem witness_DirectionsAreIndependent :
    (∃ t, exec (.sf [1]) (sending 5) = .next t) ∧ (∃ t, exec (.ff 8 [1, 2, 3, 4, 5, 6]) (sending 5) = .next t) ∧
    (∃ t, exec (.cf 1 [1]) (receiving 5) = .next t) ∧ (∃ t, exec (.recv 4) (holding 5) = .next t) ∧
    (∃ t, exec (.send [1]) (receiving 5) = .next t) ∧ (∃ t, exec (.fcCts 1 0) (sending 5) = .next t) ∧
    (∃ t, exec .poll (receiving 1103) = .next t) ∧
    (∃ t, exec .poll { receiving 1103 with send := (sending 1103).send } = .next t) ∧
    (∃ t, exec .poll (sending 1005) = .next t) ∧
    (∃ t, exec .poll { sending 1005 with recv := (receiving 1005).recv } = .next t) ∧
    (sending 5).send.id = (fresh 5).send.id ∧ decodeFrame 4095 [0x21, 0xA6] = .consecutive 1 [0xA6] ∧
    ∃ t, exec (.rx [0x21, 0xA6]) (fresh 5) = .next t :=
  ⟨⟨_, rfl⟩, ⟨_, rfl⟩, ⟨_, rfl⟩, ⟨_, rfl⟩, ⟨_, rfl⟩, ⟨_, rfl⟩, ⟨_, rfl⟩, ⟨_, rfl⟩, ⟨_, rfl⟩, ⟨_, rfl⟩, rfl, rfl, ⟨_, rfl⟩⟩

theorem witness_ResultsAndReceiveIdDecideNothing :
    (sending 1005).eraseUnread =
      ({ sending 1005 with send := { (sending 1005).send with result := .timeoutBs } } : State).eraseUnread ∧
    ∃ t, exec .poll (sending 1005) = .next t := ⟨rfl, ⟨_, rfl⟩⟩

/-- A byte past the end of the message in progress differs. -/
theorem witness_UnwrittenBytesAreNeverShown :
    (sending 1005).Inv ∧
    (sending 1005).Agrees { sending 1005 with send := { (sending 1005).send with
      buf := (Memory.cells 0 tenBytes).write 10 [0xFF] } } ∧
    ∃ t, step (sending 1005) = .next t :=
  ⟨witness_inv_sending _, ⟨⟨rfl, fun _ _ h => (Memory.get_write_outside _ _ _ _ (.inl h)).symm⟩, ⟨rfl, nofun⟩, rfl⟩, ⟨_, rfl⟩⟩

/-- A step that transmits. -/
theorem witness_AtMostOneFramePerStep :
    ∃ t, step { sending 0 with pending := [{ pollRequest with now := 1005 }] } = .next t ∧
      t.trace ≠ (sending 0).trace := ⟨_, rfl, by decide⟩

theorem witness_OnlySendAndInitLeaveTheRestingStates :
    (receiving 1103).send.status ≠ .inProgress ∧ ∃ t, exec .poll (receiving 1103) = .next t := ⟨by decide, ⟨_, rfl⟩⟩

/-- A flow-control frame within a send; a consecutive frame by itself and as operand of RX within a reception. -/
theorem witness_SizeIsFixedInFlight :
    (∃ t, exec (.fcCts 1 0) (sending 5) = .next t ∧ t.send.status = .inProgress) ∧
    (∃ t, exec (.cf 2 [1, 2, 3, 4, 5, 6, 7]) (blockEnd 5008) = .next t ∧ t.recv.status = .inProgress) ∧
    decodeFrame (blockEnd 5008).cfg.maxMsg [0x22, 1, 2, 3] = .consecutive 2 [1, 2, 3] ∧
    ∃ t, exec (.rx [0x22, 1, 2, 3]) (blockEnd 5008) = .next t ∧ t.recv.status = .inProgress :=
  ⟨⟨_, rfl, rfl⟩, ⟨_, rfl, rfl⟩, rfl, ⟨_, rfl, rfl⟩⟩

theorem witness_ConfigurationAndIdentifiersAreFixed :
    (∃ t, step { sending 0 with pending := [pollRequest] } = .next t) ∧ ∃ t, exec .poll (sending 1005) = .next t :=
  ⟨⟨_, rfl⟩, ⟨_, rfl⟩⟩

/-- The longest period with no time gone by; 100 ms exactly and one more, across the wrap. -/
theorem witness_DeadlinesAreExactAcrossTheWrap :
    (2147483647 < 2147483648 ∧ ClockDuty 5 5 2147483647) ∧ ClockDuty 0xFFFFFFF0 0x00000054 100 ∧
    ClockDuty 0xFFFFFFF0 0x00000055 100 := by decide

theorem witness_FlowControlTimeoutIsExact :
    8 ≤ tenBytes.length ∧ tenBytes.length ≤ (fresh 1000).cfg.maxMsg ∧ (fresh 1000).txOk = true ∧
    (∃ t, exec (.send tenBytes) (fresh 1000) = .next t) ∧
    (ClockDuty (fresh 1000).now 1100 (fresh 1000).cfg.nBs ∧
      ((1100 : Time) - (fresh 1000).now).toNat ≤ (fresh 1000).cfg.nBs) ∧
    ClockDuty (fresh 1000).now 1101 (fresh 1000).cfg.nBs ∧
      (fresh 1000).cfg.nBs < ((1101 : Time) - (fresh 1000).now).toNat :=
  ⟨by decide, by decide, rfl, ⟨_, rfl⟩, by decide, by decide⟩

theorem witness_ConsecutiveFramesKeepTheirDistance :
    ∃ t, exec .poll (pacing 5013) = .next t ∧ t.trace ≠ (pacing 5013).trace ∧ (pacing 5013).send.stMin ≠ 0 :=
  ⟨_, rfl, by decide, by decide⟩

/-- The two frames of a message of 10 bytes. -/
theorem witness_ReassemblyIsByteExact :
    8 ≤ tenBytes.length ∧ tenBytes.length ≤ (fresh 0).cfg.maxMsg ∧ tenBytes.length ≤ (64 : BitVec 16).toNat ∧
    ([{ image := .command { op := 0b00100, raw := [0x10, 0x0A, 0xA0, 0xA1, 0xA2, 0xA3, 0xA4, 0xA5] } },
      { image := .command { op := 0b00100, raw := [0x21, 0xA6, 0xA7, 0xA8, 0xA9] }, now := 1006 }] :
        List Request).map Request.image =
      (segments false tenBytes).map (fun f => .command { op := 0b00100, raw := f }) := by decide

/-- A SEND of 10 bytes, one "continue", one POLL. -/
theorem witness_SenderTransmitsTheSegmentation :
    8 ≤ tenBytes.length ∧ tenBytes.length ≤ (fresh 0).cfg.maxMsg ∧
    ([8] : List Byte).length = consecutiveCount tenBytes.length ∧ (∀ bs ∈ ([8] : List Byte), bs ≠ 0) ∧
    ([{ image := .command { op := 0b00010, payload := tenBytes } }, { image := .frame [0x30, 8, 0] }, pollRequest] :
        List Request).map Request.image =
      .command { op := 0b00010, payload := tenBytes } ::
        (([8] : List Byte).flatMap fun bs => [.frame [0x30, bs, 0x00], .command { op := 0b01000 }]) := by decide

/-- The send of 10 bytes, and its two frames delivered to another link. -/
theorem witness_TwoLinksCarryTheMessage :
    tenBytes.length ≤ (fresh 0).cfg.maxMsg ∧
    ∃ t, serve [{ image := .command { op := 0b00010, payload := tenBytes } }, { image := .frame [0x30, 8, 0] }, pollRequest]
        (fresh 0) = .next t ∧
      ([{ image := .command { op := 0b00100, raw := [0x10, 0x0A, 0xA0, 0xA1, 0xA2, 0xA3, 0xA4, 0xA5] } },
        { image := .command { op := 0b00100, raw := [0x21, 0xA6, 0xA7, 0xA8, 0xA9] } }] : List Request).map Request.image =
        (t.trace.drop (fresh 0).trace.length).map (fun x => .command { op := 0b00100, raw := x.frame }) :=
  ⟨by decide, _, rfl, by decide⟩

theorem witness_EncodersGiveTheirExactBytes :
    ([] : List Byte).length ≤ 7 ∧ ([1, 2, 3, 4, 5, 6, 7] : List Byte).length ≤ 7 ∧ 8 ≤ (8 : BitVec 12).toNat ∧
    8 ≤ (4095 : BitVec 12).toNat ∧ ([1, 2, 3, 4, 5, 6] : List Byte).length = 6 ∧ 1 ≤ ([1] : List Byte).length := by decide

end Sys2Proof.Tests
end

/-! # The two directions are independent (00_scope.md R11)

An operation of one direction commutes with replacing the other direction's context: it gives the same answer, and in the
state it answers the replaced context stands as it was put there. That it writes nothing of that context follows. -/

namespace Sys2Proof.Machine

/-- The operation depends on the send side through `send.id` alone, and writes nothing there. -/
def ReadsOnlySendId (op : State → Result) : Prop :=
  ∀ (s : State) (c : SendContext), c.id = s.send.id → op (s.withSend c) = andThen (op s) (·.withSend c)

/-- The operation depends on nothing of the receive side, and writes nothing there. -/
def IgnoresRecv (op : State → Result) : Prop :=
  ∀ (s : State) (c : RecvContext), op (s.withRecv c) = andThen (op s) (·.withRecv c)

theorem ReadsOnlySendId.send_eq {op : State → Result} (h : ReadsOnlySendId op) {s t : State} (ht : op s = .next t) :
    t.send = s.send := by
  have e := h s s.send rfl
  rw [State.withSend_send_self, ht, andThen_of_next] at e
  exact (congrArg State.send (Host.Outcome.next.inj e)).trans (State.withSend_send t s.send)

theorem IgnoresRecv.recv_eq {op : State → Result} (h : IgnoresRecv op) {s t : State} (ht : op s = .next t) :
    t.recv = s.recv := by
  have e := h s s.recv
  rw [State.withRecv_recv_self, ht, andThen_of_next] at e
  exact (congrArg State.recv (Host.Outcome.next.inj e)).trans (State.withRecv_recv t s.recv)

/-! ### Continuing after a buffer access or a branch -/

theorem andThen_withBuffer (r : Option Memory) (k : Memory → Result) (f : State → State) :
    andThen (withBuffer r k) f = withBuffer r fun buf => andThen (k buf) f := by
  cases r <;> rfl

theorem andThen_withBytes (r : Option (List Byte)) (k : List Byte → Result) (f : State → State) :
    andThen (withBytes r k) f = withBytes r fun data => andThen (k data) f := by
  cases r <;> rfl

theorem andThen_ite (p : Prop) [Decidable p] (a b : Result) (f : State → State) :
    andThen (if p then a else b) f = if p then andThen a f else andThen b f :=
  apply_ite (andThen · f) p a b

/-! ### The receive side reads `send.id` alone -/

theorem withRecv_transmit_withSend {s : State} {c : SendContext} (h : c.id = s.send.id) (r : RecvContext)
    (f : List Byte) : ((s.withSend c).withRecv r).transmit f = ((s.withRecv r).transmit f).withSend c := by
  simp only [State.transmit, State.withRecv, State.withSend, h]

theorem rxProgress_withSend {s : State} {c : SendContext} (h : c.id = s.send.id) :
    rxProgress (s.withSend c) = (rxProgress s).withSend c := by
  rcases rxProgress_cases s with ⟨hd, e⟩ | ⟨hd, hz, e⟩ | ⟨hd, hz, e⟩
  · rw [e]; exact rxProgress_complete (s := s.withSend c) hd
  · rw [e]; exact (rxProgress_reload (s := s.withSend c) hd hz).trans (withRecv_transmit_withSend h _ _)
  · rw [e]; exact rxProgress_count (s := s.withSend c) hd hz

theorem rxSingle_readsOnlySendId (data : List Byte) : ReadsOnlySendId (rxSingle data) := fun s c _ => by
  rw [rxSingle, rxSingle, andThen_withBuffer]; rfl

theorem rxFirstOverflow_readsOnlySendId : ReadsOnlySendId rxFirstOverflow := fun _ _ h =>
  congrArg Host.Outcome.next (withRecv_transmit_withSend h _ _)

theorem rxFirst_readsOnlySendId (n : BitVec 12) (data : List Byte) : ReadsOnlySendId (rxFirst n data) := fun s c h => by
  rw [rxFirst, rxFirst, andThen_withBuffer]
  congr 1; funext buf
  exact congrArg Host.Outcome.next (withRecv_transmit_withSend h _ _)

theorem rxMatching_readsOnlySendId (data : List Byte) : ReadsOnlySendId (rxMatching data) := fun s c h => by
  rw [rxMatching, rxMatching, andThen_withBuffer]
  congr 1; funext buf
  exact congrArg Host.Outcome.next (rxProgress_withSend (s := s.withRecv (RecvContext.armCr _ s.cfg s.now)) h)

theorem rxConsecutive_readsOnlySendId (sn : Nibble) (data : List Byte) : ReadsOnlySendId (rxConsecutive sn data) :=
  fun s c h => by
    rw [rxConsecutive, rxConsecutive, andThen_ite, andThen_ite, rxMatching_readsOnlySendId data s c h]; rfl

theorem execFf_readsOnlySendId (n : BitVec 12) (data : List Byte) : ReadsOnlySendId (execFf n data) := fun s c h => by
  rw [execFf, execFf, andThen_ite, rxFirstOverflow_readsOnlySendId s c h, rxFirst_readsOnlySendId n data s c h]; rfl

theorem execRecv_readsOnlySendId (cap : BitVec 16) : ReadsOnlySendId (execRecv cap) := fun s c _ => by
  rw [execRecv, execRecv, andThen_ite, andThen_withBytes]; rfl

/-- RX of a frame that is no flow control (43_link_ops.md R222), by the shape the decoder gives. -/
theorem execRx_withSend {raw : List Byte} {s : State} {c : SendContext} (h : c.id = s.send.id)
    (hfc : ∀ fs bs st, decodeFrame s.cfg.maxMsg raw ≠ .flowControl fs bs st) :
    execRx raw (s.withSend c) = andThen (execRx raw s) (·.withSend c) := by
  unfold execRx
  rw [State.withSend_cfg]
  cases hd : decodeFrame s.cfg.maxMsg raw with
  | reject why => rfl
  | single data => exact rxSingle_readsOnlySendId data s c h
  | first n data => exact rxFirst_readsOnlySendId n data s c h
  | firstOverflow n => exact rxFirstOverflow_readsOnlySendId s c h
  | consecutive sn data => exact rxConsecutive_readsOnlySendId sn data s c h
  | flowControl fs bs st => exact absurd hd (hfc fs bs st)

/-! ### The send side reads nothing of the receive side -/

theorem rxFlowControl_ignoresRecv (fs : Nibble) (bs st : Byte) : IgnoresRecv (rxFlowControl fs bs st) := fun s c => by
  rw [rxFlowControl_eq, rxFlowControl_eq, State.withRecv_send]
  split <;> rfl

theorem sendSingle_ignoresRecv (n : Nat) : IgnoresRecv (sendSingle n) := fun s c => by
  rw [sendSingle, sendSingle, andThen_withBytes]
  simp only [andThen_ite]; rfl

theorem sendFirst_ignoresRecv (n : Nat) : IgnoresRecv (sendFirst n) := fun s c => by
  rw [sendFirst, sendFirst, andThen_withBytes]
  simp only [andThen_ite]; rfl

theorem execSend_ignoresRecv (p : List Byte) : IgnoresRecv (execSend p) := fun s c => by
  by_cases ho : s.cfg.maxMsg < p.length
  · rw [execSend_over ho, execSend_over (s := s.withRecv c) ho]; rfl
  · rw [execSend, execSend, State.withRecv_cfg, if_neg ho, if_neg ho, andThen_withBuffer]
    congr 1; funext buf
    by_cases hl : p.length ≤ 7
    · simp only [hl, if_true]; exact sendSingle_ignoresRecv _ (s.withSend _) c
    · simp only [hl, if_false]; exact sendFirst_ignoresRecv _ (s.withSend _) c

theorem pollConsecutive_ignoresRecv : IgnoresRecv pollConsecutive := fun s c => by
  rw [pollConsecutive, pollConsecutive, andThen_withBytes]
  simp only [andThen_ite]; rfl

theorem pollTimeoutBs_withRecv (s : State) (c : RecvContext) :
    pollTimeoutBs (s.withRecv c) = (pollTimeoutBs s).withRecv c := by
  rw [pollTimeoutBs_eq, pollTimeoutBs_eq]; rfl

theorem pollSend_ignoresRecv : IgnoresRecv pollSend := fun s c => by
  by_cases hp : s.send.status = .inProgress
  · cases hm : s.send.maySend s.now with
    | false =>
      rw [pollSend_held hp hm, pollSend_held (s := s.withRecv c) hp hm, pollTimeoutBs_withRecv]; rfl
    | true =>
      rw [pollSend_sending hp hm, pollSend_sending (s := s.withRecv c) hp hm, pollConsecutive_ignoresRecv]
      cases pollConsecutive s with
      | next u => exact congrArg Host.Outcome.next (pollTimeoutBs_withRecv u c)
      | fault f => rfl
      | refused f => rfl
  · rw [pollSend_outside hp, pollSend_outside (s := s.withRecv c) hp]; rfl

/-! ### The two halves of POLL (43_link_ops.md R223) -/

theorem pollTimeoutBs_now (s : State) : (pollTimeoutBs s).now = s.now := by rw [pollTimeoutBs_eq]; rfl

theorem pollSend_now {s t : State} (h : pollSend s = .next t) : t.now = s.now := by
  rcases pollSend_next h with ⟨-, rfl⟩ | ⟨-, -, rfl⟩ | ⟨-, -, u, hu, rfl⟩
  · rfl
  · exact pollTimeoutBs_now s
  · obtain ⟨-, rfl⟩ := pollConsecutive_next hu
    exact pollTimeoutBs_now _

/-- The receive half sees only the receive context and the clock sample. -/
theorem pollRecv_recv_congr {s t : State} (hr : s.recv = t.recv) (hn : s.now = t.now) :
    (pollRecv s).recv = (pollRecv t).recv := by
  rw [pollRecv_eq, pollRecv_eq, State.withRecv_recv, State.withRecv_recv, hr, hn]

theorem execPoll_recv {s t : State} (h : execPoll s = .next t) : t.recv = (pollRecv s).recv := by
  obtain ⟨u, hu, rfl⟩ := execPoll_next h
  exact pollRecv_recv_congr (pollSend_ignoresRecv.recv_eq hu) (pollSend_now hu)

theorem execPoll_send_trace {s t : State} (h : execPoll s = .next t) :
    ∃ u, pollSend s = .next u ∧ t.send = u.send ∧ t.trace = u.trace := by
  obtain ⟨u, hu, rfl⟩ := execPoll_next h
  rw [pollRecv_eq]
  exact ⟨u, hu, rfl, rfl⟩

theorem execPoll_recv_withSend {s t u : State} {c : SendContext} (ht : execPoll s = .next t)
    (hu : execPoll (s.withSend c) = .next u) : u.recv = t.recv := by
  rw [execPoll_recv ht, execPoll_recv hu]
  exact pollRecv_recv_congr rfl rfl

theorem execPoll_send_withRecv {s t u : State} {c : RecvContext} (ht : execPoll s = .next t)
    (hu : execPoll (s.withRecv c) = .next u) : u.send = t.send ∧ u.trace = t.trace := by
  obtain ⟨v, hv, hts, htt⟩ := execPoll_send_trace ht
  obtain ⟨w, hw, hus, hut⟩ := execPoll_send_trace hu
  rw [pollSend_ignoresRecv, hv] at hw
  cases hw
  exact ⟨hus.trans hts.symm, hut.trans htt.symm⟩

/-- Settles O43: each operation commutes with replacing the context of the other direction, under the same `send.id`
where the receive side transmits. -/
theorem directionsAreIndependent : Obligations.DirectionsAreIndependent := by
  refine ⟨fun _ _ d => (rxSingle_readsOnlySendId d).send_eq, fun _ _ n d => (execFf_readsOnlySendId n d).send_eq,
    fun _ _ sn d => (rxConsecutive_readsOnlySendId sn d).send_eq, fun _ _ cap => (execRecv_readsOnlySendId cap).send_eq,
    fun _ _ p => (execSend_ignoresRecv p).recv_eq, fun _ _ fs bs st h => ?flowControl,
    fun _ _ _ _ => execPoll_recv_withSend, fun _ _ _ _ => execPoll_send_withRecv,
    fun s t c raw hid hfc (ht : execRx raw s = .next t) => ?rx⟩
  case flowControl =>
    rcases h with h | h | h | h
    · exact (rxFlowControl_ignoresRecv fsContinue bs st).recv_eq h
    · exact (rxFlowControl_ignoresRecv fsWait bs st).recv_eq h
    · exact (rxFlowControl_ignoresRecv fsOverflow bs st).recv_eq h
    · exact (rxFlowControl_ignoresRecv fs bs st).recv_eq h
  case rx =>
    exact (execRx_withSend hid hfc).trans (by rw [ht]; rfl)

end Sys2Proof.Machine

/-! # The invariants of the link hold in every reachable state (10_state.md R44 to R48)

Each named update of a context keeps that context's invariant, each instruction's meaning is made of those updates, and a
step runs a decoded, hence well-formed, instruction. The induction over `Reachable` is done once, for the whole
invariant. -/

namespace Sys2Proof

/-! ### The operands of a decoded instruction (40_codec.md R130) -/

theorem flowStatus_cases (fs : Nibble) : fs = fsContinue ∨ fs = fsWait ∨ fs = fsOverflow ∨ 3 ≤ fs.toNat := by
  revert fs; decide

theorem Instr.ffDl_ge_of_wellFormed {n : BitVec 12} {data : List Byte} (h : (Instr.ff n data).wellFormed = true) :
    8 ≤ n.toNat := by
  obtain ⟨h8, -⟩ : 8 ≤ n.toNat ∧ data.length = 6 := of_decide_eq_true h
  exact h8

theorem instrOfFrame_wellFormed {raw : List Byte} {f : Frame} (h : decodeShape raw = .ok f) :
    (instrOfFrame f).wellFormed = true := by
  obtain ⟨hmin, hmax, hf⟩ := decodeShape_ok h
  cases f with
  | single data => exact decide_eq_true hf
  | first n data => exact decide_eq_true hf.2
  | consecutive sn data =>
    have hlen : data.length + 1 = raw.length := hf
    exact decide_eq_true (by omega)
  | flowControl fs bs st =>
    rcases flowStatus_cases fs with rfl | rfl | rfl | hr
    · rfl
    · rfl
    · rfl
    · rw [instrOfFrame_reserved hr]; exact decide_eq_true hr

theorem decodeCommand_wellFormed {c : Command} {i : Instr} (h : decodeCommand c = .ok i) : i.wellFormed = true := by
  unfold decodeCommand at h
  split_ifs at h <;> cases h <;> rfl

theorem decode_wellFormed {im : Image} {i : Instr} (h : decode im = .ok i) : i.wellFormed = true := by
  cases im with
  | command c => exact decodeCommand_wellFormed h
  | frame raw =>
    replace h : decodeFrameImage raw = .ok i := h
    cases hd : decodeShape raw with
    | ok f =>
      rw [decodeFrameImage_ok hd] at h
      cases h
      exact instrOfFrame_wellFormed hd
    | error why =>
      by_cases hu : why = .unknownType
      · subst hu
        obtain ⟨b0, rest, rfl, hmin, hmax, hpci⟩ := decodeShape_unknown hd
        rw [decodeFrameImage_unknown hd] at h
        cases h
        exact decide_eq_true ⟨hpci, hmin, hmax⟩
      · rw [decodeFrameImage_reject hd hu] at h
        cases h

end Sys2Proof

namespace Sys2Proof.Machine

/-! ### RX runs the instruction of its frame (43_link_ops.md R222) -/

theorem exec_flowControl (fs : Nibble) (bs st : Byte) (s : State) :
    exec (instrOfFrame (.flowControl fs bs st)) s = rxFlowControl fs bs st s := by
  rcases flowStatus_cases fs with rfl | rfl | rfl | hr
  · rfl
  · rfl
  · rfl
  · rw [instrOfFrame_reserved hr]; rfl

theorem execRx_ok {raw : List Byte} {f : Frame} (h : decodeShape raw = .ok f) (s : State) :
    execRx raw s = exec (instrOfFrame f) s := by
  cases f with
  | single data => rw [execRx, decodeFrame_of_single h]; rfl
  | first n data =>
    show execRx raw s = execFf n data s
    rw [execRx, decodeFrame_of_first h, execFf]
    by_cases hn : s.cfg.maxMsg < n.toNat
    · rw [if_pos hn, if_pos hn]
    · rw [if_neg hn, if_neg hn]
  | consecutive sn data => rw [execRx, decodeFrame_of_consecutive h]; rfl
  | flowControl fs bs st => rw [execRx, decodeFrame_of_flowControl h, exec_flowControl]

theorem execRx_error {raw : List Byte} {why : FrameReject} (h : decodeShape raw = .error why) (s : State) :
    execRx raw s = .next s := by
  rw [execRx, decodeFrame_of_error h]

/-! ### Positions and lengths in their 12-bit registers -/

/-- A position that advances within its message does not wrap (10_state.md R44). -/
theorem toNat_add_ofNat_of_le {offset size : BitVec 12} {n : Nat} (h : offset.toNat + n ≤ size.toNat) :
    (offset + BitVec.ofNat 12 n).toNat = offset.toNat + n := by
  have := size.isLt
  rw [BitVec.toNat_add, BitVec.toNat_ofNat]
  omega

theorem toNat_ofNat_of_le_maxMsg {cfg : Config} {n : Nat} (h : n ≤ cfg.maxMsg) : (BitVec.ofNat 12 n).toNat = n := by
  have := cfg.maxMsg_le
  rw [BitVec.toNat_ofNat]
  omega

/-! ### The results of each direction (10_state.md R42) -/

/-- The results the send side records: the clause `SendContext.Inv.result_mem`. -/
abbrev ProtocolResult.OfSend (r : ProtocolResult) : Prop :=
  r ∈ [.ok, .bufferOverflow, .timeoutBs, .wftOverrun]

/-- The results the receive side records: the clause `RecvContext.Inv.result_mem`. -/
abbrev ProtocolResult.OfRecv (r : ProtocolResult) : Prop :=
  r ∈ [.ok, .bufferOverflow, .wrongSn, .timeoutCr, .unexpectedPdu]

/-! ### Updates of the send context -/

/-- Outside a transfer only the clauses on positions, ranges, result and buffer are left. -/
theorem SendContext.Inv.of_resting {cfg : Config} {c : SendContext} (hrest : c.status ≠ .inProgress)
    (hos : c.offset.toNat ≤ c.size.toNat) (hsm : c.size.toNat ≤ cfg.maxMsg) (hst : c.stMin.toNat ≤ 127)
    (hw : c.waitCount.toNat ≤ cfg.maxWft + 1) (hr : c.result.OfSend) (hb : c.buf.Sound cfg) :
    c.Inv cfg where
  offset_le_size := hos
  size_le_maxMsg := hsm
  size_ge h := absurd h hrest
  offset_ge h := absurd h hrest
  offset_lt_size h := absurd h hrest
  offset_whole h := absurd h hrest
  sn_counts h := absurd h hrest
  stMin_le := hst
  waitCount_le := hw
  waitCount_tolerated h := absurd h hrest
  result_inProgress h := absurd h hrest
  result_mem := hr
  buf_sound := hb

theorem SendContext.Inv.afterInit {cfg : Config} {buf : Memory} (hb : buf.Sound cfg) (id : Ident) :
    (SendContext.afterInit id buf).Inv cfg :=
  .of_resting nofun (Nat.le_refl 0) (Nat.zero_le _) (Nat.zero_le _) (Nat.zero_le _) (List.mem_cons_self ..) hb

section
variable {cfg : Config} {c : SendContext} (h : c.Inv cfg)
include h

theorem SendContext.Inv.abort {r : ProtocolResult} (hr : r.OfSend) : (c.abort r).Inv cfg :=
  .of_resting nofun h.offset_le_size h.size_le_maxMsg h.stMin_le h.waitCount_le hr h.buf_sound

theorem SendContext.Inv.txFailed : c.txFailed.Inv cfg := h.abort h.result_mem

theorem SendContext.Inv.armBs (now : Time) : (c.armBs cfg now).Inv cfg := { h with }

theorem SendContext.Inv.flowContinue (bs st : Byte) : (c.flowContinue bs st).Inv cfg :=
  { h with
    stMin_le := stDecode_le st
    waitCount_le := Nat.zero_le _
    waitCount_tolerated := fun _ => Nat.zero_le _ }

/-- A wait frame too many aborts the send with the count at MAX_WFT + 1 (41_send.md R165). -/
theorem SendContext.Inv.flowWait (hp : c.status = .inProgress) : (c.flowWait cfg.maxWft).Inv cfg := by
  have hle := h.waitCount_tolerated hp
  have hcount : (c.waitCount + 1).toNat = c.waitCount.toNat + 1 := by
    have := cfg.maxWft_le
    bv_omega
  rw [SendContext.flowWait]
  split_ifs with hover
  · exact .of_resting nofun h.offset_le_size h.size_le_maxMsg h.stMin_le (hcount.trans_le (by omega)) (by simp)
      h.buf_sound
  · exact { h with
      waitCount_le := hcount.trans_le (by omega)
      waitCount_tolerated := fun _ => Nat.le_of_not_lt hover }

theorem SendContext.Inv.flowAct (hp : c.status = .inProgress) (fs : Nibble) (bs st : Byte) :
    (c.flowAct cfg.maxWft fs bs st).Inv cfg := by
  rw [SendContext.flowAct]
  split_ifs
  · exact h.abort (by decide)
  · exact h.flowWait hp
  · exact h.flowContinue bs st
  · exact h

/-- The copy of a SEND, once the send side rests again: after a single frame or a failed attempt (41_send.md R155). -/
theorem SendContext.Inv.afterCopy_resting {p : List Byte} (hp : p.length ≤ cfg.maxMsg) {status : SendStatus}
    (hs : status ≠ .inProgress) {r : ProtocolResult} (hr : r.OfSend) :
    ({ c.afterCopy p with status := status, result := r } : SendContext).Inv cfg :=
  .of_resting hs (Nat.zero_le _) ((toNat_ofNat_of_le_maxMsg hp).trans_le hp) h.stMin_le h.waitCount_le hr
    (h.buf_sound.write (by omega))

theorem SendContext.Inv.afterCopy_started {p : List Byte} (h8 : 8 ≤ p.length) (hp : p.length ≤ cfg.maxMsg)
    (now : Time) : ((c.afterCopy p).started cfg now).Inv cfg := by
  have hsize : ((c.afterCopy p).started cfg now).size.toNat = p.length := toNat_ofNat_of_le_maxMsg hp
  have hoffset : ((c.afterCopy p).started cfg now).offset.toNat = 6 := rfl
  exact {
    offset_le_size := by omega
    size_le_maxMsg := by omega
    size_ge := fun _ => by omega
    offset_ge := fun _ => by omega
    offset_lt_size := fun _ => by omega
    offset_whole := fun _ => rfl
    sn_counts := fun _ => by rw [hoffset]; rfl
    stMin_le := Nat.zero_le _
    waitCount_le := Nat.zero_le _
    waitCount_tolerated := fun _ => Nat.zero_le _
    result_inProgress := fun _ => rfl
    result_mem := by simp
    buf_sound := h.buf_sound.write (by omega) }

/-- A transfer that goes on after a consecutive frame carried 7 bytes in it (41_send.md R156, R158). -/
theorem SendContext.Inv.advanced (hp : c.status = .inProgress) (now : Time) :
    (c.advanced c.chunkLength cfg now).Inv cfg := by
  have hlt := h.offset_lt_size hp
  have hchunk : c.chunkLength = min 7 (c.size.toNat - c.offset.toNat) := rfl
  have hoffset : (c.offset + BitVec.ofNat 12 c.chunkLength).toNat = c.offset.toNat + c.chunkLength :=
    toNat_add_ofNat_of_le (size := c.size) (by omega)
  by_cases hdone : c.offset + BitVec.ofNat 12 c.chunkLength = c.size
  · refine .of_resting (by simp [hdone]) ?_ h.size_le_maxMsg h.stMin_le h.waitCount_le h.result_mem h.buf_sound
    simp [hdone]
  · have hne : (c.offset + BitVec.ofNat 12 c.chunkLength).toNat ≠ c.size.toNat :=
      fun e => hdone (BitVec.eq_of_toNat_eq e)
    have hoffset' : (c.advanced c.chunkLength cfg now).offset.toNat = c.offset.toNat + 7 := by
      rw [advanced_offset]; omega
    have hge := h.offset_ge hp
    have hwhole := h.offset_whole hp
    have hsn := h.sn_counts hp
    exact { h with
      offset_le_size := by rw [hoffset', advanced_size]; omega
      size_ge := fun _ => h.size_ge hp
      offset_ge := fun _ => by omega
      offset_lt_size := fun _ => by rw [hoffset', advanced_size]; omega
      offset_whole := fun _ => by omega
      sn_counts := fun _ => by
        rw [hoffset', advanced_sn]
        bv_omega
      waitCount_tolerated := fun _ => h.waitCount_tolerated hp
      result_inProgress := fun _ => h.result_inProgress hp }

end

/-! ### Updates of the receive context -/

/-- Outside a reception only the clauses on positions, result and buffer are left. -/
theorem RecvContext.Inv.of_resting {cfg : Config} {c : RecvContext} (hrest : c.status ≠ .inProgress)
    (hos : c.offset.toNat ≤ c.size.toNat) (hsm : c.size.toNat ≤ cfg.maxMsg)
    (hfull : c.status = .full → c.offset = c.size) (hr : c.result.OfRecv) (hb : c.buf.Sound cfg) :
    c.Inv cfg where
  offset_le_size := hos
  size_le_maxMsg := hsm
  size_ge h := absurd h hrest
  offset_ge h := absurd h hrest
  offset_lt_size h := absurd h hrest
  bsCount_ge h := absurd h hrest
  bsCount_le h := absurd h hrest
  full_whole := hfull
  result_mem := hr
  buf_sound := hb

theorem RecvContext.Inv.afterInit {cfg : Config} {buf : Memory} (hb : buf.Sound cfg) (id : Ident) :
    (RecvContext.afterInit id buf).Inv cfg :=
  .of_resting nofun (Nat.le_refl 0) (Nat.zero_le _) nofun (List.mem_cons_self ..) hb

theorem arrivalResult_ofRecv (st : RecvStatus) : (arrivalResult st).OfRecv := by
  cases st <;> decide

theorem RecvContext.takeLength_le (c : RecvContext) (data : List Byte) :
    c.takeLength data ≤ c.size.toNat - c.offset.toNat := Nat.min_le_right _ _

theorem bsDefault_toNat (cfg : Config) : (BitVec.ofNat 8 cfg.bsDefault).toNat = cfg.bsDefault := by
  have := cfg.bsDefault_le
  rw [BitVec.toNat_ofNat]
  omega

section
variable {cfg : Config} {c : RecvContext} (h : c.Inv cfg)
include h

theorem RecvContext.Inv.abort {r : ProtocolResult} (hr : r.OfRecv) : (c.abort r).Inv cfg :=
  .of_resting nofun h.offset_le_size h.size_le_maxMsg nofun hr h.buf_sound

/-- RECV leaves the receive side idle with its result (42_receive.md R200). -/
theorem RecvContext.Inv.drained : ({ c with status := .idle } : RecvContext).Inv cfg := h.abort h.result_mem

theorem RecvContext.Inv.unexpected : ({ c with result := .unexpectedPdu } : RecvContext).Inv cfg :=
  { h with result_mem := by simp }

theorem RecvContext.Inv.afterSingle {data : List Byte} (hd : data.length ≤ cfg.maxMsg) : (c.afterSingle data).Inv cfg :=
  .of_resting nofun (Nat.le_refl _) ((toNat_ofNat_of_le_maxMsg hd).trans_le hd) (fun _ => rfl) (arrivalResult_ofRecv _)
    (h.buf_sound.write (by omega))

theorem RecvContext.Inv.afterFirst {n : BitVec 12} {data : List Byte} (h8 : 8 ≤ n.toNat) (hn : n.toNat ≤ cfg.maxMsg)
    (hd : data.length ≤ cfg.maxMsg) (now : Time) : (c.afterFirst cfg now n data).Inv cfg where
  offset_le_size := Nat.le_trans (by decide : 6 ≤ 8) h8
  size_le_maxMsg := hn
  size_ge _ := h8
  offset_ge _ := Nat.le_refl 6
  offset_lt_size _ := Nat.lt_of_lt_of_le (by decide : 6 < 8) h8
  bsCount_ge _ := cfg.bsDefault_ge.trans_eq (bsDefault_toNat cfg).symm
  bsCount_le _ := (bsDefault_toNat cfg).le
  full_whole := nofun
  result_mem := arrivalResult_ofRecv _
  buf_sound := h.buf_sound.write (by omega)

theorem RecvContext.Inv.afterMatching_offset (now : Time) (data : List Byte) :
    (c.afterMatching cfg now data).offset.toNat = c.offset.toNat + c.takeLength data := by
  have hle := h.offset_le_size
  have htake := c.takeLength_le data
  exact toNat_add_ofNat_of_le (size := c.size) (by omega)

theorem RecvContext.Inv.afterMatching_offset_le (now : Time) (data : List Byte) :
    (c.afterMatching cfg now data).offset.toNat ≤ c.size.toNat := by
  have hle := h.offset_le_size
  have htake := c.takeLength_le data
  rw [h.afterMatching_offset]
  omega

theorem RecvContext.Inv.afterMatching_sound (now : Time) (data : List Byte) :
    (c.afterMatching cfg now data).buf.Sound cfg := by
  have hle := h.afterMatching_offset_le now data
  have hmax := h.size_le_maxMsg
  rw [h.afterMatching_offset] at hle
  exact h.buf_sound.write (by rw [List.length_take]; omega)

/-- The last consecutive frame of a message (42_receive.md R193). -/
theorem RecvContext.Inv.afterMatching_complete {now : Time} {data : List Byte}
    (hdone : (c.afterMatching cfg now data).offset = c.size) :
    ({ c.afterMatching cfg now data with status := .full } : RecvContext).Inv cfg :=
  .of_resting nofun (h.afterMatching_offset_le now data) h.size_le_maxMsg (fun _ => hdone) (List.mem_cons_self ..)
    (h.afterMatching_sound now data)

/-- A consecutive frame that leaves the message unfinished, with the block count then set (42_receive.md R194). -/
theorem RecvContext.Inv.afterMatching_window (hp : c.status = .inProgress) {now : Time} {data : List Byte}
    (hmore : (c.afterMatching cfg now data).offset ≠ c.size) {count : Byte} (h1 : 1 ≤ count.toNat)
    (hcount : count.toNat ≤ cfg.bsDefault) :
    ({ c.afterMatching cfg now data with bsCount := count } : RecvContext).Inv cfg where
  offset_le_size := h.afterMatching_offset_le now data
  size_le_maxMsg := h.size_le_maxMsg
  size_ge _ := h.size_ge hp
  offset_ge _ := (h.offset_ge hp).trans ((Nat.le_add_right _ _).trans_eq (h.afterMatching_offset now data).symm)
  offset_lt_size _ :=
    Nat.lt_of_le_of_ne (h.afterMatching_offset_le now data) fun e => hmore (BitVec.eq_of_toNat_eq e)
  bsCount_ge _ := h1
  bsCount_le _ := hcount
  full_whole hf := absurd (hp.symm.trans hf) nofun
  result_mem := List.mem_cons_self ..
  buf_sound := h.afterMatching_sound now data

end

/-! ### Updates of the link -/

section
variable {s : State} (h : s.Inv)
include h

theorem State.Inv.withSend {c : SendContext} (hc : c.Inv s.cfg) : (s.withSend c).Inv := ⟨hc, h.recv⟩

theorem State.Inv.withRecv {c : RecvContext} (hc : c.Inv s.cfg) : (s.withRecv c).Inv := ⟨h.send, hc⟩

theorem State.Inv.respond (r : Response) : (s.respond r).Inv := ⟨h.send, h.recv⟩

theorem State.Inv.transmit (f : List Byte) : (s.transmit f).Inv := ⟨h.send, h.recv⟩

theorem State.Inv.latch (r : Request) (rest : List Request) : (s.latch r rest).Inv := ⟨h.send, h.recv⟩

/-- Steps (d) and (e) of RX_CF (42_receive.md R193, R194). -/
theorem State.Inv.rxProgress_afterMatching (hp : s.recv.status = .inProgress) (data : List Byte) :
    (rxProgress (s.withRecv (s.recv.afterMatching s.cfg s.now data))).Inv := by
  rcases rxProgress_cases (s.withRecv (s.recv.afterMatching s.cfg s.now data)) with
    ⟨hdone, e⟩ | ⟨hmore, -, e⟩ | ⟨hmore, hz, e⟩
  · rw [e]
    exact h.withRecv (h.recv.afterMatching_complete hdone)
  · rw [e]
    refine State.Inv.transmit (h.withRecv (h.recv.afterMatching_window hp hmore ?_ ?_)) _
    · exact s.cfg.bsDefault_ge.trans_eq (bsDefault_toNat s.cfg).symm
    · exact (bsDefault_toNat s.cfg).le
  · rw [e]
    have hge := h.recv.bsCount_ge hp
    have hle := h.recv.bsCount_le hp
    replace hz : s.recv.bsCount - 1 ≠ 0 := hz
    have hcount : (s.recv.bsCount - 1).toNat = s.recv.bsCount.toNat - 1 := by bv_omega
    refine h.withRecv (h.recv.afterMatching_window hp hmore (count := s.recv.bsCount - 1) ?_ ?_)
    · bv_omega
    · omega

/-! ### The instructions -/

variable {t : State}

theorem rxSingle_inv {data : List Byte} (ht : rxSingle data s = .next t) : t.Inv := by
  obtain ⟨hd, rfl⟩ := rxSingle_next ht
  exact h.withRecv (h.recv.afterSingle hd)

theorem rxConsecutive_inv {sn : Nibble} {data : List Byte} (ht : rxConsecutive sn data s = .next t) : t.Inv := by
  rcases rxConsecutive_next ht with ⟨-, rfl⟩ | ⟨-, -, rfl⟩ | ⟨hp, -, -, rfl⟩
  · exact h.withRecv h.recv.unexpected
  · exact h.withRecv (h.recv.abort (by decide))
  · exact h.rxProgress_afterMatching hp data

theorem execFf_inv {n : BitVec 12} {data : List Byte} (h8 : 8 ≤ n.toNat) (ht : execFf n data s = .next t) : t.Inv := by
  rw [execFf] at ht
  split_ifs at ht with hover
  · cases ht
    exact (h.withRecv (h.recv.abort (by decide))).transmit _
  · obtain ⟨hd, rfl⟩ := rxFirst_next ht
    exact (h.withRecv (h.recv.afterFirst h8 (Nat.le_of_not_lt hover) hd s.now)).transmit _

theorem rxFlowControl_inv {fs : Nibble} {bs st : Byte} (ht : rxFlowControl fs bs st s = .next t) : t.Inv := by
  rw [rxFlowControl_eq] at ht
  split_ifs at ht with hp <;> cases ht
  · exact h.withSend ((h.send.armBs s.now).flowAct hp fs bs st)
  · exact h

theorem execInit_inv {sendId receiveId : Ident} (ht : execInit sendId receiveId s = .next t) : t.Inv := by
  cases ht
  exact ⟨.afterInit h.send.buf_sound sendId, .afterInit h.recv.buf_sound receiveId⟩

/-- The three paths of SEND (41_send.md R151 to R153), the last two by the transport's answer (R155). -/
theorem execSend_inv {p : List Byte} (ht : execSend p s = .next t) : t.Inv := by
  by_cases hover : s.cfg.maxMsg < p.length
  · rw [execSend_over hover] at ht; cases ht
    exact h.respond _
  have hp : p.length ≤ s.cfg.maxMsg := Nat.le_of_not_lt hover
  have hfailed : (s.send.afterCopy p).txFailed.Inv s.cfg :=
    h.send.afterCopy_resting hp (status := .error) nofun h.send.result_mem
  have hsent : ({ s.send.afterCopy p with status := .idle, result := .ok } : SendContext).Inv s.cfg :=
    h.send.afterCopy_resting hp (status := .idle) nofun (r := .ok) (by decide)
  by_cases hshort : p.length ≤ 7
  · rw [execSend_short hshort] at ht
    split_ifs at ht <;> cases ht
    · exact ((h.transmit _).withSend hsent).respond _
    · exact ((h.transmit _).withSend hfailed).respond _
  · have h8 : 8 ≤ p.length := by omega
    rw [execSend_long h8 hp] at ht
    split_ifs at ht <;> cases ht
    · exact ((h.transmit _).withSend (h.send.afterCopy_started h8 hp s.now)).respond _
    · exact ((h.transmit _).withSend hfailed).respond _

theorem pollTimeoutBs_inv : (pollTimeoutBs s).Inv := by
  rw [pollTimeoutBs_eq]
  split_ifs
  · exact h.withSend (h.send.abort (by decide))
  · exact h

theorem pollRecv_inv : (pollRecv s).Inv := by
  rw [pollRecv_eq]
  split_ifs
  · exact h.withRecv (h.recv.abort (by decide))
  · exact h

theorem pollConsecutive_inv (hp : s.send.status = .inProgress) (ht : pollConsecutive s = .next t) : t.Inv := by
  obtain ⟨-, rfl⟩ := pollConsecutive_next ht
  refine (h.transmit _).withSend ?_
  split_ifs
  · exact h.send.advanced hp s.now
  · exact h.send.txFailed

theorem execPoll_inv (ht : execPoll s = .next t) : t.Inv := by
  obtain ⟨u, hu, rfl⟩ := execPoll_next ht
  rcases pollSend_next hu with ⟨-, rfl⟩ | ⟨-, -, rfl⟩ | ⟨hp, -, v, hv, rfl⟩
  · exact pollRecv_inv h
  · exact pollRecv_inv (pollTimeoutBs_inv h)
  · exact pollRecv_inv (pollTimeoutBs_inv (pollConsecutive_inv h hp hv))

theorem execRecv_inv {cap : BitVec 16} (ht : execRecv cap s = .next t) : t.Inv := by
  rcases execRecv_next ht with ⟨-, rfl⟩ | ⟨-, rfl⟩
  · exact h.respond _
  · exact (h.withRecv h.recv.drained).respond _

/-- RX by the shape of its frame; a frame the codec rejects is dropped (43_link_ops.md R222). -/
theorem execRx_inv {raw : List Byte} (ht : execRx raw s = .next t) : t.Inv := by
  cases hd : decodeShape raw with
  | error why => rw [execRx_error hd] at ht; cases ht; exact h
  | ok f =>
    rw [execRx_ok hd] at ht
    cases f with
    | single data => exact rxSingle_inv h ht
    | first n data => exact execFf_inv h (Instr.ffDl_ge_of_wellFormed (instrOfFrame_wellFormed hd)) ht
    | consecutive sn data => exact rxConsecutive_inv h ht
    | flowControl fs bs st => rw [exec_flowControl] at ht; exact rxFlowControl_inv h ht

/-- Only a first frame needs its operand range: FF_DL is at least 8 (40_codec.md R134). -/
theorem exec_inv {i : Instr} (hi : i.wellFormed = true) (ht : exec i s = .next t) : t.Inv := by
  cases i with
  | sf data => exact rxSingle_inv h ht
  | ff n data => exact execFf_inv h (Instr.ffDl_ge_of_wellFormed hi) ht
  | cf sn data => exact rxConsecutive_inv h ht
  | fcCts bs st => exact rxFlowControl_inv h ht
  | fcWait bs st => exact rxFlowControl_inv h ht
  | fcOvflw bs st => exact rxFlowControl_inv h ht
  | fcRsvd fs bs st => exact rxFlowControl_inv h ht
  | rsvdType pci low rest => cases ht; exact h
  | init sendId receiveId => exact execInit_inv h ht
  | send payload => exact execSend_inv h ht
  | rx raw => exact execRx_inv h ht
  | poll => exact execPoll_inv h ht
  | recv cap => exact execRecv_inv h ht

/-! ### The step and the reachable states -/

theorem step_inv (ht : step s = .next t) : t.Inv := by
  rcases step_next ht with ⟨-, rfl⟩ | ⟨r, rest, -, ⟨i, hd, hi⟩ | ⟨-, rfl⟩⟩
  · exact h
  · exact exec_inv (h.latch r rest) (decode_wellFormed hd) hi
  · exact h.latch r rest

end

theorem Reachable.inv {s : State} (h : Reachable s) : s.Inv := by
  induction h with
  | initial cfg sendId receiveId sendBuf recvBuf hs hr => exact ⟨.afterInit hs sendId, .afterInit hr receiveId⟩
  | present _ requests ih => exact ⟨ih.send, ih.recv⟩
  | step _ ht ih => exact step_inv ih ht

/-- Settles O41: the positions are clauses of the invariant, which every reachable state meets. -/
theorem positionsStayWithinTheBuffers : Obligations.PositionsStayWithinTheBuffers := fun _ hs =>
  have ⟨hsend, hrecv⟩ := hs.inv
  ⟨hsend.offset_le_size, hsend.size_le_maxMsg, hrecv.offset_le_size, hrecv.size_le_maxMsg⟩

end Sys2Proof.Machine

/-! # Malformed frames are dropped (30_encoding.md R97, R98)

The length gate rejects a frame whatever its bytes are, and behind it the high nibble alone rejects an unknown type. RX
drops what the codec rejects. -/

namespace Sys2Proof

theorem hiNibble_toNat (b : Byte) : (hiNibble b).toNat = b.toNat / 16 := by
  have hb := b.isLt
  rw [hiNibble, BitVec.extractLsb'_toNat, Nat.shiftRight_eq_div_pow]
  omega

theorem decodeShape_wrongLength {raw : List Byte} (h : raw.length < 2 ∨ 8 < raw.length) :
    ∃ why, decodeShape raw = .error why := by
  rcases h with hshort | hlong
  · exact ⟨_, decodeShape_short hshort⟩
  · exact ⟨_, decodeShape_long hlong⟩

end Sys2Proof

namespace Sys2Proof.Machine

theorem execRx_wrongLength {raw : List Byte} (h : raw.length < 2 ∨ 8 < raw.length) (s : State) :
    execRx raw s = .next s := by
  obtain ⟨why, hwhy⟩ := decodeShape_wrongLength h
  exact execRx_error hwhy s

/-- The frame may have any length: the length gate drops it, or else its type does. -/
theorem execRx_unknownType {b0 : Byte} (h : 4 ≤ b0.toNat / 16) (rest : List Byte) (s : State) :
    execRx (b0 :: rest) s = .next s := by
  by_cases hlen : 1 ≤ rest.length ∧ rest.length ≤ 7
  · obtain ⟨hmin, hmax⟩ := hlen
    have htype : 4 ≤ (hiNibble b0).toNat := by rwa [hiNibble_toNat]
    exact execRx_error (decodeShape_unknown_of hmin hmax htype) s
  · exact execRx_wrongLength (by rw [List.length_cons]; omega) s

theorem exec_rsvdType (pci low : Nibble) (rest : List Byte) (s : State) : exec (.rsvdType pci low rest) s = .next s := rfl

/-- Settles O33: the codec rejects both kinds of frame, and RX drops what it rejects; RSVD.TYPE is that drop. -/
theorem malformedFramesAreDropped : Obligations.MalformedFramesAreDropped :=
  ⟨fun s _ rest h => execRx_unknownType h rest s,
    fun s pci low rest => exec_rsvdType pci low rest s,
    fun s _ h => execRx_wrongLength h s⟩

end Sys2Proof.Machine

/-! # The separation time on the wire (40_codec.md R128, R129)

The decoder has one law per branch: direct codes, the codes of 100 to 900 µs, and every other code. The encoder is the
minimum with 127 (`stEncode_toNat`), and a flow-control frame carries its result in byte 2 whether padded or not. -/

namespace Sys2Proof

theorem stDecode_direct {code : Byte} (h : code.toNat ≤ 0x7F) : stDecode code = code := if_pos h

theorem stDecode_microseconds {code : Byte} (hmin : 0xF1 ≤ code.toNat) (hmax : code.toNat ≤ 0xF9) : stDecode code = 1 := by
  have hdirect : ¬ code.toNat ≤ 0x7F := by omega
  rw [stDecode, if_neg hdirect, if_pos ⟨hmin, hmax⟩]

theorem stDecode_reserved {code : Byte} (hdirect : 0x80 ≤ code.toNat) (hmicro : code.toNat ≤ 0xF0 ∨ 0xFA ≤ code.toNat) :
    stDecode code = 0 := by
  rw [stDecode, if_neg (by omega), if_neg (by omega)]

theorem encodeFlowControl_byte_two (padMode : Bool) (fs : Nibble) (bs : Byte) (ms : Nat) :
    (encodeFlowControl padMode fs bs ms)[2]? = some (stEncode ms) := by
  rw [encodeFlowControl, padFrame_cons]
  cases padMode <;> rfl

/-- Settles O5: each clause is the law of the decoder's branch that its codes take. -/
theorem separationTimeDecodes : Obligations.SeparationTimeDecodes := by
  refine ⟨fun code => ⟨fun h => ?direct, fun hmin hmax => ?micro, fun hmin hmax => ?low, fun h => ?high,
    stDecode_le code⟩, stDecode_stEncode⟩
  case direct => rw [stDecode_direct h]
  case micro => rw [stDecode_microseconds hmin hmax]; rfl
  case low => rw [stDecode_reserved hmin (.inl hmax)]; rfl
  case high => rw [stDecode_reserved (by omega) (.inr h)]; rfl

/-- Settles O6: a code is the minimum of the time and 127, and byte 2 of the frame is such a code. -/
theorem separationTimeEncodes : Obligations.SeparationTimeEncodes := by
  refine ⟨fun ms => ⟨fun h => ?kept, fun h => ?clamped⟩, fun padMode fs bs ms =>
    ⟨stEncode ms, encodeFlowControl_byte_two padMode fs bs ms, ?bounded⟩⟩
  case kept => rw [stEncode_toNat, min_eq_left h]
  case clamped => rw [stEncode_toNat, min_eq_right h.le]
  case bounded => exact (stEncode_toNat ms).trans_le (min_le_right ms 127)

end Sys2Proof

/-! # Flow control at the sender (41_send.md R163, R164, R167)

The send status decides first: within a send the frame re-arms the timer and then does what its flow status says, outside
one it does nothing. The four instructions are that one operation at their flow status. -/

namespace Sys2Proof.Machine

section
variable {s : State}

/-! ### The operation by the send status, at any flow status -/

theorem rxFlowControl_inside (h : s.send.status = .inProgress) (fs : Nibble) (bs st : Byte) :
    rxFlowControl fs bs st s = .next (s.withSend ((s.send.armBs s.cfg s.now).flowAct s.cfg.maxWft fs bs st)) := by
  rw [rxFlowControl_eq, if_pos h]

theorem rxFlowControl_outside (h : s.send.status ≠ .inProgress) (fs : Nibble) (bs st : Byte) :
    rxFlowControl fs bs st s = .next s := by
  rw [rxFlowControl_eq, if_neg h]

/-! ### The instructions -/

theorem exec_fcCts (bs st : Byte) : exec (.fcCts bs st) s = rxFlowControl fsContinue bs st s := rfl

theorem exec_fcWait (bs st : Byte) : exec (.fcWait bs st) s = rxFlowControl fsWait bs st s := rfl

theorem exec_fcOvflw (bs st : Byte) : exec (.fcOvflw bs st) s = rxFlowControl fsOverflow bs st s := rfl

theorem exec_fcRsvd (fs : Nibble) (bs st : Byte) : exec (.fcRsvd fs bs st) s = rxFlowControl fs bs st s := rfl

theorem exec_fcCts_inside (h : s.send.status = .inProgress) (bs st : Byte) :
    exec (.fcCts bs st) s = .next (s.withSend ((s.send.armBs s.cfg s.now).flowContinue bs st)) := by
  rw [exec_fcCts, rxFlowControl_inside h, SendContext.flowAct_continue]

theorem exec_fcOvflw_inside (h : s.send.status = .inProgress) (bs st : Byte) :
    exec (.fcOvflw bs st) s = .next (s.withSend (s.send.armBs s.cfg s.now).flowOverflow) := by
  rw [exec_fcOvflw, rxFlowControl_inside h, SendContext.flowAct_overflow]

/-! ### POLL outside a send (41_send.md R156) -/

theorem exec_poll_outside (h : s.send.status ≠ .inProgress) : exec .poll s = .next (pollRecv s) :=
  execPoll_of_pollSend (pollSend_outside h)

@[simp] theorem pollRecv_send : (pollRecv s).send = s.send := by
  rw [pollRecv_eq, State.withRecv_send]

@[simp] theorem pollRecv_trace : (pollRecv s).trace = s.trace := by
  rw [pollRecv_eq, State.withRecv_trace]

end

/-- Settles O20: the fields written are those of `armBs` and `flowContinue`. -/
theorem continueLoadsCreditAndPacing : Obligations.ContinueLoadsCreditAndPacing :=
  fun _ bs st h => exec_fcCts_inside h bs st

/-- Settles O23: the abort leaves the send side in ERROR, and the send half of a POLL looks at no timer there. -/
theorem overflowFrameAbortsTheSend : Obligations.OverflowFrameAbortsTheSend := by
  intro s bs st h
  refine ⟨_, exec_fcOvflw_inside h bs st, rfl, fun clock => ⟨_, exec_poll_outside ?resting, ?send, ?trace⟩⟩
  case resting => exact nofun
  case send => rw [pollRecv_send]
  case trace => rw [pollRecv_trace]

/-- Settles O25: the send status alone decides, before the flow status is looked at. -/
theorem flowControlOutsideASendIsIgnored : Obligations.FlowControlOutsideASendIsIgnored := by
  intro s fs bs st h
  rw [exec_fcCts, exec_fcWait, exec_fcOvflw, exec_fcRsvd]
  exact ⟨rxFlowControl_outside h fsContinue bs st, rxFlowControl_outside h fsWait bs st,
    rxFlowControl_outside h fsOverflow bs st, rxFlowControl_outside h fs bs st⟩

end Sys2Proof.Machine

/-! # The receive half of POLL, and a consecutive frame outside a reception (42_receive.md R191, R198)

The chunk of a consecutive frame lies within the message, so under the invariant the send half of POLL always completes.
It leaves the receive context and the clock sample to the receive half, and neither half writes an input or the response. -/

namespace Sys2Proof.Machine

theorem SendContext.Inv.chunk_le_maxMsg {cfg : Config} {c : SendContext} (h : c.Inv cfg) :
    c.offset.toNat + c.chunkLength ≤ cfg.maxMsg := by
  have hoffset := h.offset_le_size
  have hsize := h.size_le_maxMsg
  rw [SendContext.chunkLength]
  omega

section
variable {s t : State}

/-! ### POLL completes -/

theorem pollSend_completes (h : s.Inv) : ∃ t, pollSend s = .next t := by
  by_cases hp : s.send.status = .inProgress
  · cases hm : s.send.maySend s.now with
    | false => exact ⟨_, pollSend_held hp hm⟩
    | true =>
      rw [pollSend_sending hp hm, pollConsecutive_eq h.send.chunk_le_maxMsg, andThen_of_next]
      exact ⟨_, rfl⟩
  · exact ⟨s, pollSend_outside hp⟩

theorem execPoll_completes (h : s.Inv) : ∃ t, execPoll s = .next t := by
  obtain ⟨u, hu⟩ := pollSend_completes h
  exact ⟨pollRecv u, execPoll_of_pollSend hu⟩

/-! ### What POLL does to the receive context -/

theorem execPoll_recv_passed (ht : execPoll s = .next t) (hp : s.recv.status = .inProgress)
    (hcr : after s.now s.recv.timerCr = true) : t.recv = s.recv.abort .timeoutCr := by
  rw [execPoll_recv ht, pollRecv_passed hp hcr, State.withRecv_recv]

theorem execPoll_recv_pending (ht : execPoll s = .next t)
    (h : s.recv.status ≠ .inProgress ∨ after s.now s.recv.timerCr = false) : t.recv = s.recv := by
  rw [execPoll_recv ht, pollRecv_pending h]

/-! ### What POLL leaves unchanged -/

theorem pollSend_frame (h : pollSend s = .next t) : t.response = s.response ∧ s.SameInputs t := by
  rcases pollSend_next h with ⟨-, rfl⟩ | ⟨-, -, rfl⟩ | ⟨-, -, u, hu, rfl⟩
  · exact ⟨rfl, rfl, rfl, rfl, rfl⟩
  · rw [pollTimeoutBs_eq]
    exact ⟨rfl, rfl, rfl, rfl, rfl⟩
  · obtain ⟨-, rfl⟩ := pollConsecutive_next hu
    rw [pollTimeoutBs_eq]
    exact ⟨rfl, rfl, rfl, rfl, rfl⟩

theorem execPoll_frame (h : execPoll s = .next t) : t.response = s.response ∧ s.SameInputs t := by
  obtain ⟨u, hu, rfl⟩ := execPoll_next h
  obtain ⟨hresponse, hinputs⟩ := pollSend_frame hu
  rw [pollRecv_eq]
  exact ⟨hresponse, hinputs.cfg, hinputs.pending, hinputs.now, hinputs.txOk⟩

theorem execPoll_send_trace_outside (hs : s.send.status ≠ .inProgress) (ht : execPoll s = .next t) :
    t.send = s.send ∧ t.trace = s.trace := by
  obtain ⟨u, hu, hsend, htrace⟩ := execPoll_send_trace ht
  cases (pollSend_outside hs).symm.trans hu
  exact ⟨hsend, htrace⟩

/-! ### A consecutive frame, by the receive status -/

theorem exec_cf (sn : Nibble) (data : List Byte) : exec (.cf sn data) s = rxConsecutive sn data s := rfl

end

/-- Settles O18: POLL completes under the invariant, its receive half acts on the receive context it was given, and its
send half does nothing outside a send. -/
theorem pollReceiveHalf : Obligations.PollReceiveHalf := by
  intro s hinv
  obtain ⟨t, ht⟩ := execPoll_completes hinv
  obtain ⟨hresponse, hinputs⟩ := execPoll_frame ht
  exact ⟨t, ht, execPoll_recv_passed ht, execPoll_recv_pending ht,
    fun hs => execPoll_send_trace_outside hs ht, hresponse, hinputs⟩

/-- Settles O29: the receive status decides before the sequence number is looked at. -/
theorem consecutiveFrameOutsideAReception : Obligations.ConsecutiveFrameOutsideAReception := by
  intro s sn d h
  rw [exec_cf, rxConsecutive_outside h]
  rfl

end Sys2Proof.Machine

/-! # Images and instructions (30_encoding.md section 5, 40_codec.md R130)

The round trip is settled constructor by constructor in `Laws.DecodeEncode`; the operand ranges of a decoded instruction
are `decode_wellFormed`. -/

namespace Sys2Proof

/-- Settles O1, one law per constructor. -/
theorem decodeEncodeRoundTrip : Obligations.DecodeEncodeRoundTrip := by
  intro i
  cases i with
  | sf data => exact Laws.DecodeEncode.sf data
  | ff n data => exact Laws.DecodeEncode.ff n data
  | cf sn data => exact Laws.DecodeEncode.cf sn data
  | fcCts bs st => exact Laws.DecodeEncode.fcCts bs st
  | fcWait bs st => exact Laws.DecodeEncode.fcWait bs st
  | fcOvflw bs st => exact Laws.DecodeEncode.fcOvflw bs st
  | fcRsvd fs bs st => exact Laws.DecodeEncode.fcRsvd fs bs st
  | rsvdType pci low rest => exact Laws.DecodeEncode.rsvdType pci low rest
  | init sendId receiveId => exact Laws.DecodeEncode.init sendId receiveId
  | send payload => exact Laws.DecodeEncode.send payload
  | rx raw => exact Laws.DecodeEncode.rx raw
  | poll => exact Laws.DecodeEncode.poll
  | recv cap => exact Laws.DecodeEncode.recv cap

/-- Settles O2. -/
theorem decoderYieldsWellFormed : Obligations.DecoderYieldsWellFormed := fun _ _ => decode_wellFormed

/-- Settles O3: the words are closed, and so is what they decode to. -/
theorem specWordsDecode : Obligations.SpecWordsDecode := by
  unfold Obligations.SpecWordsDecode
  decide

end Sys2Proof

/-! # The frame codec (40_codec.md R120 to R124, R138, R139)

The decoder chooses its arm by the high nibble, and each arm has a law of its own. The verdicts and the round trips
follow from what `decodeShape` answers; the exact bytes of the encoders follow from the value of a packed byte. -/

namespace Sys2Proof

/-! ### The fields of byte 0 -/

theorem loNibble_toNat (b : Byte) : (loNibble b).toNat = b.toNat % 16 := by
  rw [loNibble, BitVec.extractLsb'_toNat, Nat.shiftRight_zero]

theorem packNibbles_toNat (h l : Nibble) : (packNibbles h l).toNat = 16 * h.toNat + l.toNat := by
  revert h l; decide

theorem loNibble_eq {b : Byte} {l : Nibble} (h : l.toNat = b.toNat % 16) : loNibble b = l :=
  BitVec.eq_of_toNat_eq ((loNibble_toNat b).trans h.symm)

theorem hiNibble_eq {b : Byte} {t : Nibble} (h : b.toNat / 16 = t.toNat) : hiNibble b = t :=
  BitVec.eq_of_toNat_eq ((hiNibble_toNat b).trans h)

theorem packLength_eq {b0 b1 : Byte} {n : BitVec 12} (h : n.toNat = 256 * (b0.toNat % 16) + b1.toNat) :
    packLength (loNibble b0) b1 = n := by
  apply BitVec.eq_of_toNat_eq
  rw [packLength_toNat, loNibble_toNat, h, Nat.mul_comm]

/-! ### The arm of each PCI type (R133 to R136) -/

section
variable {b0 : Byte} {rest : List Byte}

theorem decodeArms_type_zero (h : b0.toNat / 16 = 0) : decodeArms b0 rest = decodeSingleArm (loNibble b0) rest := by
  rw [decodeArms, hiNibble_eq (t := 0) h]; rfl

theorem decodeArms_type_one (h : b0.toNat / 16 = 1) : decodeArms b0 rest = decodeFirstArm (loNibble b0) rest := by
  rw [decodeArms, hiNibble_eq (t := 1) h]; rfl

theorem decodeArms_type_two (h : b0.toNat / 16 = 2) : decodeArms b0 rest = .ok (.consecutive (loNibble b0) rest) := by
  rw [decodeArms, hiNibble_eq (t := 2) h]; rfl

theorem decodeArms_type_three (h : b0.toNat / 16 = 3) :
    decodeArms b0 rest = decodeFlowControlArm (loNibble b0) rest := by
  rw [decodeArms, hiNibble_eq (t := 3) h]; rfl

end

/-! ### What each arm answers -/

theorem decodeSingleArm_short {dl : Nibble} {rest : List Byte} (h : rest.length < dl.toNat) :
    decodeSingleArm dl rest = .error .singleLength := if_pos h

theorem decodeSingleArm_fits {dl : Nibble} {rest : List Byte} (h : dl.toNat ≤ rest.length) :
    decodeSingleArm dl rest = .ok (.single (rest.take dl.toNat)) := if_neg (by omega)

theorem decodeFirstArm_length {hi : Nibble} {rest : List Byte} (h : rest.length ≠ 7) :
    decodeFirstArm hi rest = .error .firstNotEightBytes := by
  cases rest with
  | nil => rfl
  | cons lo data => exact if_pos (by rw [List.length_cons] at h; omega)

theorem decodeFirstArm_low {hi : Nibble} {lo : Byte} {data : List Byte} (hd : data.length = 6)
    (hn : (packLength hi lo).toNat < 8) : decodeFirstArm hi (lo :: data) = .error .firstTotalBelowEight := by
  rw [decodeFirstArm, if_neg (by omega), if_pos hn]

theorem decodeFirstArm_ok {hi : Nibble} {lo : Byte} {data : List Byte} (hd : data.length = 6)
    (hn : 8 ≤ (packLength hi lo).toNat) :
    decodeFirstArm hi (lo :: data) = .ok (.first (packLength hi lo) data) := by
  rw [decodeFirstArm, if_neg (by omega), if_neg (by omega)]

theorem decodeFlowControlArm_short {fs : Nibble} {rest : List Byte} (h : rest.length = 1) :
    decodeFlowControlArm fs rest = .error .flowControlLength := by
  obtain ⟨b, rfl⟩ := List.length_eq_one_iff.mp h
  rfl

/-- Settles O4: the length gate, then the arm of the high nibble, then the comparison with MAX_MSG. -/
theorem frameDecoderVerdicts : Obligations.FrameDecoderVerdicts := by
  intro maxMsg raw
  refine ⟨fun h => decodeFrame_of_error (decodeShape_short h), fun h => decodeFrame_of_error (decodeShape_long h), ?_⟩
  rintro b0 rest rfl hmin hmax
  rw [List.length_cons] at hmin hmax
  have arms : decodeShape (b0 :: rest) = decodeArms b0 rest := decodeShape_cons (by omega) (by omega)
  have low := loNibble_toNat b0
  simp only [List.length_cons, Nat.add_sub_cancel]
  refine ⟨fun ht hdl => ?singleShort, fun ht hdl => ?single, fun ht hlen => ?firstLength,
    fun ht hlen b1 data hrest n hn => ?first, fun ht sn hsn => ?consecutive, fun ht hlen => ?flowShort,
    fun ht bs st more hrest fs hfs => ?flow, fun ht => ?unknown⟩
  case singleShort =>
    exact decodeFrame_of_error (by rw [arms, decodeArms_type_zero ht, decodeSingleArm_short (by omega)])
  case single =>
    exact decodeFrame_of_single (by rw [arms, decodeArms_type_zero ht, decodeSingleArm_fits (by omega), low])
  case firstLength =>
    exact decodeFrame_of_error (by rw [arms, decodeArms_type_one ht, decodeFirstArm_length (by omega)])
  case first =>
    subst hrest
    have hdata : data.length = 6 := by rw [List.length_cons] at hlen; omega
    rw [decodeArms_type_one ht] at arms
    refine ⟨fun hlow => ?_, fun hge hle => ?_, fun hge hlt => ?_⟩
    · exact decodeFrame_of_error (arms.trans (decodeFirstArm_low hdata (by rwa [packLength_eq hn])))
    · rw [decodeFirstArm_ok hdata (by rwa [packLength_eq hn]), packLength_eq hn] at arms
      rw [decodeFrame_of_first arms, if_neg (by omega)]
    · rw [decodeFirstArm_ok hdata (by rwa [packLength_eq hn]), packLength_eq hn] at arms
      rw [decodeFrame_of_first arms, if_pos hlt]
  case consecutive =>
    exact decodeFrame_of_consecutive (by rw [arms, decodeArms_type_two ht, loNibble_eq hsn])
  case flowShort =>
    exact decodeFrame_of_error (by rw [arms, decodeArms_type_three ht, decodeFlowControlArm_short (by omega)])
  case flow =>
    subst hrest
    exact decodeFrame_of_flowControl (by rw [arms, decodeArms_type_three ht, loNibble_eq hfs]; rfl)
  case unknown =>
    exact decodeFrame_of_error (decodeShape_unknown_of (by omega) (by omega) (by rwa [hiNibble_toNat]))

/-- Settles O7: each encoder's frame is read back by `decodeShape`, and the decoder adds the comparison with MAX_MSG. -/
theorem codecRoundTrips : Obligations.CodecRoundTrips := by
  intro maxMsg padMode
  refine ⟨fun p hp => ?single, fun n d hn hd => ?first, fun sn c hmin hmax => ?consecutive, fun fs bs ms => ?flow⟩
  case single =>
    split_ifs with hempty
    · obtain ⟨rfl, rfl⟩ := hempty
      rfl
    · refine decodeFrame_of_single (decodeShape_encodeSingle padMode p hp ?_)
      cases padMode with
      | true => exact .inl rfl
      | false => exact .inr fun hnil => hempty ⟨rfl, hnil⟩
  case first =>
    rw [decodeFrame_of_first (decodeShape_encodeFirst n d hn hd)]
    by_cases hfits : n.toNat ≤ maxMsg
    · rw [if_neg (by omega), if_pos hfits]
    · rw [if_pos (by omega), if_neg hfits]
  case consecutive =>
    exact decodeFrame_of_consecutive (decodeShape_encodeConsecutive padMode sn c hmin hmax)
  case flow =>
    exact ⟨stEncode ms, decodeFrame_of_flowControl (decodeShape_encodeFlowControl padMode fs bs ms),
      stDecode_stEncode ms⟩

/-- Padding fills the frame behind its first byte (R120). -/
theorem padFrame_cons_append (padMode : Bool) (b : Byte) (f : List Byte) :
    padFrame padMode (b :: f) = b :: f ++ if padMode then List.replicate (7 - f.length) 0 else [] := by
  rw [padFrame_cons]
  cases padMode with
  | true => rfl
  | false => exact (List.append_nil _).symm

/-- Settles O57: byte 0 is the packed byte of the frame's type, and what follows the fields is the padding. -/
theorem encodersGiveTheirExactBytes : Obligations.EncodersGiveTheirExactBytes := by
  intro padMode
  refine ⟨fun p hp => ⟨_, ?single, padFrame_cons_append ..⟩, fun n d hn hd => ⟨_, _, ?firstHigh, ?firstLow, rfl⟩,
    fun sn c hmin hmax => ⟨_, packNibbles_toNat 2 sn, padFrame_cons_append ..⟩,
    fun fs bs ms => ⟨_, _, packNibbles_toNat 3 fs, stEncode_toNat ms, padFrame_cons_append ..⟩⟩
  case single =>
    rw [packNibbles_toNat, BitVec.toNat_ofNat]
    show 16 * 0 + p.length % 16 = p.length
    omega
  case firstHigh =>
    have hn := n.isLt
    rw [packNibbles_toNat, lengthHi, BitVec.extractLsb'_toNat, Nat.shiftRight_eq_div_pow]
    show 16 * 1 + n.toNat / 256 % 16 = 16 + n.toNat / 256
    omega
  case firstLow =>
    rw [lengthLo, BitVec.extractLsb'_toNat, Nat.shiftRight_zero]

end Sys2Proof

/-! # Buffer accesses (20_memory.md R62, R63) -/

namespace Sys2Proof.Machine

/-- A byte of a run written from index 0. -/
theorem Memory.get_write_zero (m : Memory) {bytes : List Byte} {a : Nat} (h : a < bytes.length) :
    (m.write 0 bytes).get a = bytes[a] := by
  have hget := Memory.get_write_inside m 0 bytes a h
  rwa [Nat.zero_add] at hget

/-- A byte past a run written from index 0. -/
theorem Memory.get_write_zero_past (m : Memory) {bytes : List Byte} {a : Nat} (h : bytes.length ≤ a) :
    (m.write 0 bytes).get a = m.get a :=
  Memory.get_write_outside m 0 bytes a (.inr (by omega))

/-- Settles O8: an access inside the buffer is `Memory.write` or `Memory.bytes`, one outside has no answer. -/
theorem bufferAccessesTouchOnlyTheirWindow : Obligations.BufferAccessesTouchOnlyTheirWindow := by
  intro cap m i
  refine ⟨fun bytes hle => ⟨_, bufWrite_eq_some hle, fun k h => Memory.get_write_inside m i bytes k h,
      fun a ha => Memory.get_write_outside m i bytes a ha, fun hm => Memory.wf_write hm i bytes⟩,
    fun bytes hlt => if_neg (by omega),
    fun n hle => ⟨_, bufRead_eq_some hle, Memory.length_bytes m i n, fun k hk => ?read⟩,
    fun n hlt => if_neg (by omega)⟩
  have hk' : k < (m.bytes i n).length := by rwa [Memory.length_bytes]
  rw [List.getElem?_eq_getElem hk', Memory.getElem_bytes]

end Sys2Proof.Machine

/-! # Every instruction is one of nine operations (43_link_ops.md R222)

An inbound frame is presented by itself or as the operand of RX, and RX runs the instruction of its frame. What holds of
the operations below holds of every instruction; the frame an operation is given is remembered where its operands
matter. -/

namespace Sys2Proof

/-- The instruction presents the frame: it is that frame's own, or the RX of bytes that decode to it. -/
def Instr.Presents (i : Instr) (f : Frame) : Prop :=
  i = instrOfFrame f ∨ ∃ raw, i = .rx raw ∧ decodeShape raw = .ok f

theorem Instr.Presents.wellFormed {i : Instr} {f : Frame} (h : i.Presents f) (hi : i.wellFormed = true) :
    (instrOfFrame f).wellFormed = true := by
  rcases h with rfl | ⟨raw, -, hd⟩
  · exact hi
  · exact instrOfFrame_wellFormed hd

/-- The operand ranges of a well-formed single frame, and of a well-formed first frame. -/
theorem Instr.Presents.single_length {i : Instr} {data : List Byte} (h : i.Presents (.single data))
    (hi : i.wellFormed = true) : data.length ≤ 7 := of_decide_eq_true (h.wellFormed hi)

theorem Instr.Presents.first_length {i : Instr} {n : BitVec 12} {data : List Byte} (h : i.Presents (.first n data))
    (hi : i.wellFormed = true) : data.length = 6 :=
  have hrange : 8 ≤ n.toNat ∧ data.length = 6 := of_decide_eq_true (h.wellFormed hi)
  hrange.2

end Sys2Proof

namespace Sys2Proof.Machine

/-- RX of bytes that decode to a frame is that frame's instruction, as an operation on states. -/
theorem exec_rx_ok {raw : List Byte} {f : Frame} (h : decodeShape raw = .ok f) :
    exec (.rx raw) = exec (instrOfFrame f) := funext (execRx_ok h)

theorem exec_rx_error {raw : List Byte} {why : FrameReject} (h : decodeShape raw = .error why) :
    exec (.rx raw) = .next := funext (execRx_error h)

/-- A property of the nine operations is a property of every instruction. -/
theorem exec_of_operations {P : (State → Result) → Prop} (i : Instr)
    (drop : P .next)
    (single : ∀ data, i.Presents (.single data) → P (rxSingle data))
    (first : ∀ n data, i.Presents (.first n data) → P (execFf n data))
    (consecutive : ∀ sn data, P (rxConsecutive sn data))
    (flowControl : ∀ fs bs st, P (rxFlowControl fs bs st))
    (init : ∀ a b, i = .init a b → P (execInit a b))
    (send : ∀ p, i = .send p → P (execSend p))
    (poll : P execPoll)
    (recv : ∀ cap, P (execRecv cap)) : P (exec i) := by
  cases i with
  | sf data => exact single data (.inl rfl)
  | ff n data => exact first n data (.inl rfl)
  | cf sn data => exact consecutive sn data
  | fcCts bs st => exact flowControl fsContinue bs st
  | fcWait bs st => exact flowControl fsWait bs st
  | fcOvflw bs st => exact flowControl fsOverflow bs st
  | fcRsvd fs bs st => exact flowControl fs bs st
  | rsvdType pci low rest => exact drop
  | init a b => exact init a b rfl
  | send p => exact send p rfl
  | poll => exact poll
  | recv cap => exact recv cap
  | rx raw =>
    cases hd : decodeShape raw with
    | error why => rw [exec_rx_error hd]; exact drop
    | ok f =>
      rw [exec_rx_ok hd]
      cases f with
      | single data => exact single data (.inr ⟨raw, rfl, hd⟩)
      | first n data => exact first n data (.inr ⟨raw, rfl, hd⟩)
      | consecutive sn data => exact consecutive sn data
      | flowControl fs bs st => rw [funext (exec_flowControl fs bs st)]; exact flowControl fs bs st

/-- Settles O32: an instruction is read from a frame the codec accepts, or from one of unknown type, which RX drops like
every frame the codec rejects. -/
theorem rxRunsTheDecodedFrame : Obligations.RxRunsTheDecodedFrame := by
  intro s raw
  cases hd : decodeShape raw with
  | ok f =>
    have hok : decode (.frame raw) = .ok (instrOfFrame f) := decodeFrameImage_ok hd
    rw [hok, exec_rx_ok hd]
    exact ⟨fun i hi => by cases hi; rfl, nofun⟩
  | error why =>
    rw [exec_rx_error hd]
    refine ⟨fun i hi => ?_, fun _ _ => rfl⟩
    by_cases hu : why = .unknownType
    · subst hu
      obtain ⟨b0, rest, rfl, -, -, -⟩ := decodeShape_unknown hd
      cases (decodeFrameImage_unknown hd).symm.trans hi
      rfl
    · cases (decodeFrameImage_reject hd hu).symm.trans hi

/-! # The block never stops (60_exceptions.md R240)

Under the invariant every buffer access of an instruction lies inside its buffer, so that every well-formed instruction
answers a next state, and so does every step but one on two operations at once. -/

section
variable {s : State}

theorem rxSingle_completes {data : List Byte} (h : data.length ≤ 7) : ∃ t, rxSingle data s = .next t :=
  have hmax := s.cfg.maxMsg_ge
  ⟨_, rxSingle_eq (by omega)⟩

theorem execFf_over {n : BitVec 12} {data : List Byte} (h : s.cfg.maxMsg < n.toNat) :
    execFf n data s = rxFirstOverflow s := if_pos h

theorem execFf_fits {n : BitVec 12} {data : List Byte} (h : n.toNat ≤ s.cfg.maxMsg) (hd : data.length = 6) :
    execFf n data s = .next (s.withRecv (s.recv.afterFirst s.cfg s.now n data)).transmitContinue := by
  have hmax := s.cfg.maxMsg_ge
  rw [execFf, if_neg (by omega), rxFirst_eq (by omega)]

theorem execFf_completes {n : BitVec 12} {data : List Byte} (h : data.length = 6) : ∃ t, execFf n data s = .next t := by
  by_cases hn : s.cfg.maxMsg < n.toNat
  · exact ⟨_, execFf_over hn⟩
  · exact ⟨_, execFf_fits (Nat.le_of_not_lt hn) h⟩

theorem RecvContext.Inv.take_le_maxMsg {cfg : Config} {c : RecvContext} (h : c.Inv cfg) (data : List Byte) :
    c.offset.toNat + c.takeLength data ≤ cfg.maxMsg := by
  have hoffset := h.offset_le_size
  have hsize := h.size_le_maxMsg
  have htake := c.takeLength_le data
  omega

theorem rxConsecutive_completes (h : s.Inv) (sn : Nibble) (data : List Byte) :
    ∃ t, rxConsecutive sn data s = .next t := by
  by_cases hp : s.recv.status = .inProgress
  · by_cases hs : sn = s.recv.sn
    · subst hs
      exact ⟨_, (rxConsecutive_matching hp).trans (rxMatching_eq (h.recv.take_le_maxMsg data))⟩
    · exact ⟨_, rxConsecutive_wrong hp hs⟩
  · exact ⟨_, rxConsecutive_outside hp⟩

theorem rxFlowControl_completes (fs : Nibble) (bs st : Byte) : ∃ t, rxFlowControl fs bs st s = .next t := by
  by_cases hp : s.send.status = .inProgress
  · exact ⟨_, rxFlowControl_inside hp fs bs st⟩
  · exact ⟨_, rxFlowControl_outside hp fs bs st⟩

theorem execSend_completes (p : List Byte) : ∃ t, execSend p s = .next t := by
  by_cases hover : s.cfg.maxMsg < p.length
  · exact ⟨_, execSend_over hover⟩
  by_cases hshort : p.length ≤ 7
  · rw [execSend_short hshort]
    split_ifs <;> exact ⟨_, rfl⟩
  · rw [execSend_long (by omega) (by omega)]
    split_ifs <;> exact ⟨_, rfl⟩

theorem execRecv_completes (h : s.Inv) (cap : BitVec 16) : ∃ t, execRecv cap s = .next t := by
  by_cases hf : s.recv.status = .full
  · exact ⟨_, execRecv_full hf h.recv.size_le_maxMsg⟩
  · exact ⟨_, execRecv_outside hf⟩

end

/-- The operation answers a next state from every state of the invariant. -/
def Completes (op : State → Result) : Prop := ∀ s : State, s.Inv → ∃ t, op s = .next t

theorem exec_completes {i : Instr} (hi : i.wellFormed = true) : Completes (exec i) :=
  exec_of_operations i
    (drop := fun s _ => ⟨s, rfl⟩)
    (single := fun _ h _ _ => rxSingle_completes (h.single_length hi))
    (first := fun _ _ h _ _ => execFf_completes (h.first_length hi))
    (consecutive := fun sn data _ h => rxConsecutive_completes h sn data)
    (flowControl := fun fs bs st _ _ => rxFlowControl_completes fs bs st)
    (init := fun _ _ _ _ _ => ⟨_, rfl⟩)
    (send := fun p _ _ _ => execSend_completes p)
    (poll := fun _ h => execPoll_completes h)
    (recv := fun cap _ h => execRecv_completes h cap)

/-! ### The step by what is presented (30_encoding.md R110) -/

section
variable {s : State}

theorem step_of_nothing (h : s.pending = []) : step s = .next s := by
  rw [step, present, h]

theorem step_of_noOperation {r : Request} {rest : List Request} (h : s.pending = r :: rest)
    (hd : decode r.image = .error .noOperation) : step s = .next (s.latch r rest) := by
  rw [step, present, h]; simp only [perform, hd]

theorem step_of_badFrame {r : Request} {rest : List Request} {why : FrameReject} (h : s.pending = r :: rest)
    (hd : decode r.image = .error (.badFrame why)) : step s = .next (s.latch r rest) := by
  rw [step, present, h]; simp only [perform, hd]

theorem step_of_multiHot {r : Request} {rest : List Request} (h : s.pending = r :: rest)
    (hd : decode r.image = .error .multiHot) : step s = .refused .concurrentOperations := by
  rw [step, present, h]; simp only [perform, hd]

/-- A step from the invariant answers a next state, or is refused because two operations are presented at once. -/
theorem step_answers (hs : s.Inv) :
    (∃ t, step s = .next t) ∨
      ∃ r rest, s.pending = r :: rest ∧ decode r.image = .error .multiHot ∧
        step s = .refused .concurrentOperations := by
  cases hp : s.pending with
  | nil => exact .inl ⟨s, step_of_nothing hp⟩
  | cons r rest =>
    cases hd : decode r.image with
    | ok i =>
      obtain ⟨t, ht⟩ := exec_completes (decode_wellFormed hd) _ (hs.latch r rest)
      exact .inl ⟨t, (step_of_decode hp hd).trans ht⟩
    | error e =>
      cases e with
      | noOperation => exact .inl ⟨_, step_of_noOperation hp hd⟩
      | badFrame why => exact .inl ⟨_, step_of_badFrame hp hd⟩
      | multiHot => exact .inr ⟨r, rest, rfl, hd, step_of_multiHot hp hd⟩

end

/-- Settles O40. -/
theorem everyStepKeepsTheInvariant : Obligations.EveryStepKeepsTheInvariant :=
  fun _ _ h => step_inv h

/-- Settles O42: `step_answers` leaves the multi-hot select as the only step without a next state. -/
theorem theBlockNeverStops : Obligations.TheBlockNeverStops := by
  intro s hs
  rcases step_answers hs with ⟨t, ht⟩ | ⟨r, rest, hp, hd, href⟩
  · exact ⟨fun f hf => (nomatch ht.symm.trans hf), fun _ => ⟨t, ht⟩⟩
  · exact ⟨fun f hf => (nomatch href.symm.trans hf), fun hser => absurd hd (hser r rest hp)⟩

/-- Settles O37. -/
theorem stepRunsTheDecodedInstruction : Obligations.StepRunsTheDecodedInstruction :=
  fun _ _ _ _ => step_of_decode

theorem decodeCommand_multiHot {c : Command}
    (h : c.op ∉ [0b00000, 0b00001, 0b00010, 0b00100, 0b01000, (0b10000 : BitVec 5)]) :
    decodeCommand c = .error .multiHot := by
  simp only [List.mem_cons, List.not_mem_nil, or_false, not_or] at h
  obtain ⟨h0, h1, h2, h3, h4, h5⟩ := h
  exact (if_neg h0).trans <| (if_neg h1).trans <| (if_neg h2).trans <| (if_neg h3).trans <|
    (if_neg h4).trans (if_neg h5)

/-- Settles O38: one law of the step per kind of image without an instruction. -/
theorem stepWithoutAnInstruction : Obligations.StepWithoutAnInstruction := by
  refine ⟨fun s => step_of_nothing, fun s r rest hp hd => ?_, fun s c r rest hp hc hop => ?_⟩
  · rcases hd with hd | ⟨why, hd⟩
    · exact step_of_noOperation hp hd
    · exact step_of_badFrame hp hd
  · exact step_of_multiHot hp (by rw [hc]; exact decodeCommand_multiHot hop)

/-- Settles O39: both sides of the reset state are fresh from an INIT, with empty buffers. -/
theorem invariantHoldsAtReset : Obligations.InvariantHoldsAtReset :=
  ⟨.afterInit (.nil _) 0, .afterInit (.nil _) 0⟩

/-! ### RX returns nothing -/

theorem rxProgress_response (s : State) : (rxProgress s).response = s.response := by
  rcases rxProgress_cases s with ⟨-, e⟩ | ⟨-, -, e⟩ | ⟨-, -, e⟩ <;> rw [e] <;> rfl

/-- No inbound frame writes the response. -/
theorem exec_frame_response {f : Frame} {s t : State} (ht : exec (instrOfFrame f) s = .next t) :
    t.response = s.response := by
  cases f with
  | single data =>
    obtain ⟨-, rfl⟩ := rxSingle_next ht
    rfl
  | first n data =>
    by_cases hn : s.cfg.maxMsg < n.toNat
    · cases (execFf_over hn).symm.trans ht
      rfl
    · obtain ⟨-, rfl⟩ := rxFirst_next ((if_neg hn).symm.trans ht)
      rfl
  | consecutive sn data =>
    rcases rxConsecutive_next ht with ⟨-, rfl⟩ | ⟨-, -, rfl⟩ | ⟨-, -, -, rfl⟩
    · rfl
    · rfl
    · exact rxProgress_response _
  | flowControl fs bs st =>
    rw [exec_flowControl, rxFlowControl_eq] at ht
    split_ifs at ht <;> cases ht <;> rfl

/-- Settles O34. -/
theorem rxAlwaysCompletes : Obligations.RxAlwaysCompletes := by
  intro s raw h
  cases hd : decodeShape raw with
  | error why => exact ⟨s, execRx_error hd s, rfl⟩
  | ok f =>
    obtain ⟨t, ht⟩ := exec_completes (instrOfFrame_wellFormed hd) s h
    exact ⟨t, (execRx_ok hd s).trans ht, exec_frame_response ht⟩

end Sys2Proof.Machine

/-! # Unwritten bytes are never shown (20_memory.md R74)

Two states that agree differ in one direction's buffer bytes and in the other's, and an operation reads one direction
only (`ReadsOnlySendId`, `IgnoresRecv`). So each operation is looked at with one context replaced by an agreeing one. -/

namespace Sys2Proof.Machine

/-! ### Agreeing contexts and states -/

/-- The context with another buffer: an agreeing context is one of these. -/
def SendContext.withBuf (c : SendContext) (m : Memory) : SendContext := { c with buf := m }

def RecvContext.withBuf (c : RecvContext) (m : Memory) : RecvContext := { c with buf := m }

theorem SendContext.Agrees.exists_withBuf {c d : SendContext} (h : c.Agrees d) : ∃ m, d = c.withBuf m :=
  ⟨d.buf, (congrArg (·.withBuf d.buf) h.registers).symm⟩

theorem RecvContext.Agrees.exists_withBuf {c d : RecvContext} (h : c.Agrees d) : ∃ m, d = c.withBuf m :=
  ⟨d.buf, (congrArg (·.withBuf d.buf) h.registers).symm⟩

theorem SendContext.agrees_of_resting {c : SendContext} (h : c.status ≠ .inProgress) (m : Memory) :
    c.Agrees (c.withBuf m) := ⟨rfl, fun hp => absurd hp h⟩

theorem RecvContext.agrees_of_idle {c : RecvContext} (h : c.status = .idle) (m : Memory) :
    c.Agrees (c.withBuf m) := ⟨rfl, fun hne => absurd h hne⟩

theorem State.Agrees.intro {s : State} {c : SendContext} {d : RecvContext} (hc : s.send.Agrees c)
    (hd : s.recv.Agrees d) : s.Agrees ((s.withSend c).withRecv d) := ⟨hc, hd, rfl⟩

theorem State.Agrees.exists_contexts {s t : State} (h : s.Agrees t) :
    ∃ c d, t = (s.withSend c).withRecv d ∧ s.send.Agrees c ∧ s.recv.Agrees d :=
  ⟨t.send, t.recv, h.rest.symm, h.send, h.recv⟩

/-! ### Operations that keep the agreement -/

/-- The operation takes agreeing states to agreeing states. -/
def KeepsAgreement (op : State → Result) : Prop :=
  ∀ s t s' : State, s.Inv → s.Agrees t → op s = .next s' → ∃ t', op t = .next t' ∧ s'.Agrees t'

/-- The same when the send contexts alone differ. -/
def KeepsSendAgreement (op : State → Result) : Prop :=
  ∀ (s s' : State) (c : SendContext), s.Inv → s.send.Agrees c → op s = .next s' →
    ∃ c', op (s.withSend c) = .next (s'.withSend c') ∧ s'.send.Agrees c'

/-- The same when the receive contexts alone differ. -/
def KeepsRecvAgreement (op : State → Result) : Prop :=
  ∀ (s s' : State) (d : RecvContext), s.Inv → s.recv.Agrees d → op s = .next s' →
    ∃ d', op (s.withRecv d) = .next (s'.withRecv d') ∧ s'.recv.Agrees d'

theorem KeepsSendAgreement.keepsAgreement {op : State → Result} (h : KeepsSendAgreement op) (hop : IgnoresRecv op) :
    KeepsAgreement op := by
  intro s t s' hinv hst hs'
  obtain ⟨c, d, rfl, hc, hd⟩ := hst.exists_contexts
  obtain ⟨c', hc', hagree⟩ := h s s' c hinv hc hs'
  refine ⟨(s'.withSend c').withRecv d, ?_, .intro hagree ?_⟩
  · rw [hop, hc', andThen_of_next]
  · rwa [hop.recv_eq hs']

theorem KeepsRecvAgreement.keepsAgreement {op : State → Result} (h : KeepsRecvAgreement op) (hop : ReadsOnlySendId op) :
    KeepsAgreement op := by
  intro s t s' hinv hst hs'
  obtain ⟨c, d, rfl, hc, hd⟩ := hst.exists_contexts
  obtain ⟨d', hd', hagree⟩ := h s s' d hinv hd hs'
  have hid : c.id = s.send.id := by
    obtain ⟨m, rfl⟩ := hc.exists_withBuf
    rfl
  refine ⟨(s'.withSend c).withRecv d', ?_, .intro ?_ hagree⟩
  · show op ((s.withRecv d).withSend c) = _
    rw [hop (s.withRecv d) c hid, hd', andThen_of_next]
    rfl
  · rwa [hop.send_eq hs']

/-! ### Flow control (41_send.md R163 to R167) -/

theorem SendContext.flowWait_withBuf (c : SendContext) (m : Memory) (w : Nat) :
    (c.withBuf m).flowWait w = (c.flowWait w).withBuf m := by
  rw [SendContext.flowWait, SendContext.flowWait, apply_ite (SendContext.withBuf · m)]
  rfl

theorem SendContext.flowAct_withBuf (c : SendContext) (m : Memory) (w : Nat) (fs : Nibble) (bs st : Byte) :
    (c.withBuf m).flowAct w fs bs st = (c.flowAct w fs bs st).withBuf m := by
  simp only [SendContext.flowAct, SendContext.flowWait_withBuf]
  split_ifs <;> rfl

@[simp] theorem SendContext.flowWait_buf (c : SendContext) (w : Nat) : (c.flowWait w).buf = c.buf := by
  rw [SendContext.flowWait]; split_ifs <;> rfl

@[simp] theorem SendContext.flowWait_size (c : SendContext) (w : Nat) : (c.flowWait w).size = c.size := by
  rw [SendContext.flowWait]; split_ifs <;> rfl

@[simp] theorem SendContext.flowAct_buf (c : SendContext) (w : Nat) (fs : Nibble) (bs st : Byte) :
    (c.flowAct w fs bs st).buf = c.buf := by
  rw [SendContext.flowAct]
  split_ifs
  · rfl
  · exact c.flowWait_buf w
  · rfl
  · rfl

@[simp] theorem SendContext.flowAct_size (c : SendContext) (w : Nat) (fs : Nibble) (bs st : Byte) :
    (c.flowAct w fs bs st).size = c.size := by
  rw [SendContext.flowAct]
  split_ifs
  · rfl
  · exact c.flowWait_size w
  · rfl
  · rfl

theorem rxFlowControl_keepsSendAgreement (fs : Nibble) (bs st : Byte) :
    KeepsSendAgreement (rxFlowControl fs bs st) := by
  intro s s' c _ hc hs'
  obtain ⟨m, rfl⟩ := hc.exists_withBuf
  by_cases hp : s.send.status = .inProgress
  · cases (rxFlowControl_inside hp fs bs st).symm.trans hs'
    refine ⟨((s.send.armBs s.cfg s.now).flowAct s.cfg.maxWft fs bs st).withBuf m, ?_, rfl, fun _ a ha => ?_⟩
    · rw [rxFlowControl_inside (s := s.withSend (s.send.withBuf m)) hp]
      exact congrArg (fun x => Host.Outcome.next (s.withSend x))
        (SendContext.flowAct_withBuf (s.send.armBs s.cfg s.now) m s.cfg.maxWft fs bs st)
    · rw [State.withSend_send, SendContext.flowAct_buf, SendContext.armBs_buf]
      rw [State.withSend_send, SendContext.flowAct_size, SendContext.armBs_size] at ha
      exact hc.shown hp a ha
  · cases (rxFlowControl_outside hp fs bs st).symm.trans hs'
    exact ⟨_, rxFlowControl_outside (s := s.withSend (s.send.withBuf m)) hp fs bs st, hc⟩

/-! ### SEND (41_send.md R150): the message in progress afterwards has just been written -/

theorem SendContext.afterCopy_started_agrees (c : SendContext) (m : Memory) (p : List Byte) (cfg : Config)
    (now : Time) :
    ((c.afterCopy p).started cfg now).Agrees (((c.afterCopy p).started cfg now).withBuf (m.write 0 p)) := by
  refine ⟨rfl, fun _ a ha => ?_⟩
  have hlen : a < p.length := Nat.lt_of_lt_of_le ha (Nat.mod_le _ _)
  exact (Memory.get_write_zero c.buf hlen).trans (Memory.get_write_zero m hlen).symm

theorem execSend_keepsSendAgreement (p : List Byte) : KeepsSendAgreement (execSend p) := by
  intro s s' c _ hc hs'
  obtain ⟨m, rfl⟩ := hc.exists_withBuf
  by_cases hover : s.cfg.maxMsg < p.length
  · cases (execSend_over hover).symm.trans hs'
    exact ⟨_, execSend_over (s := s.withSend (s.send.withBuf m)) hover, hc⟩
  by_cases hshort : p.length ≤ 7
  · rw [execSend_short hshort] at hs'
    rw [execSend_short hshort, State.withSend_txOk]
    split_ifs at hs' ⊢ <;> cases hs'
    · exact ⟨_, rfl, SendContext.agrees_of_resting (by nofun) (m.write 0 p)⟩
    · exact ⟨_, rfl, SendContext.agrees_of_resting (by nofun) (m.write 0 p)⟩
  · have hlong : 8 ≤ p.length := by omega
    have hp : p.length ≤ s.cfg.maxMsg := Nat.le_of_not_lt hover
    rw [execSend_long hlong hp] at hs'
    rw [execSend_long (s := s.withSend (s.send.withBuf m)) hlong hp, State.withSend_txOk]
    split_ifs at hs' ⊢ <;> cases hs'
    · exact ⟨_, rfl, SendContext.afterCopy_started_agrees s.send m p s.cfg s.now⟩
    · exact ⟨_, rfl, SendContext.agrees_of_resting (by nofun) (m.write 0 p)⟩

/-! ### POLL (43_link_ops.md R223) -/

theorem pollTimeoutBs_agrees {s : State} {m : Memory} (h : s.send.Agrees (s.send.withBuf m)) :
    ∃ c', pollTimeoutBs (s.withSend (s.send.withBuf m)) = (pollTimeoutBs s).withSend c' ∧
      (pollTimeoutBs s).send.Agrees c' := by
  cases ha : after s.now s.send.timerBs with
  | true =>
    rw [pollTimeoutBs_passed ha, pollTimeoutBs_passed (s := s.withSend (s.send.withBuf m)) ha]
    exact ⟨_, rfl, SendContext.agrees_of_resting (by nofun) m⟩
  | false =>
    rw [pollTimeoutBs_pending ha, pollTimeoutBs_pending (s := s.withSend (s.send.withBuf m)) ha]
    exact ⟨_, rfl, h⟩

/-- The bytes of a consecutive frame lie within the message in progress. -/
theorem SendContext.Inv.chunk_agrees {cfg : Config} {c : SendContext} {m : Memory} (h : c.Inv cfg)
    (hp : c.status = .inProgress) (hm : c.Agrees (c.withBuf m)) :
    m.bytes c.offset.toNat c.chunkLength = c.buf.bytes c.offset.toNat c.chunkLength := by
  refine Memory.bytes_congr fun a hmin hmax => (hm.shown hp a ?_).symm
  have hoffset := h.offset_le_size
  rw [SendContext.chunkLength] at hmax
  omega

theorem pollConsecutive_agrees {s s' : State} {m : Memory} (hinv : s.Inv) (hp : s.send.status = .inProgress)
    (hm : s.send.Agrees (s.send.withBuf m)) (hs' : pollConsecutive s = .next s') :
    pollConsecutive (s.withSend (s.send.withBuf m)) = .next (s'.withSend (s'.send.withBuf m)) ∧
      s'.send.Agrees (s'.send.withBuf m) := by
  obtain ⟨hle, rfl⟩ := pollConsecutive_next hs'
  have heq : pollConsecutive (s.withSend (s.send.withBuf m)) =
      .next ((s.transmit (encodeConsecutive s.cfg.pad s.send.sn
          (m.bytes s.send.offset.toNat s.send.chunkLength))).withSend
        (if s.txOk then (s.send.withBuf m).advanced s.send.chunkLength s.cfg s.now else (s.send.withBuf m).txFailed)) :=
    pollConsecutive_eq (s := s.withSend (s.send.withBuf m)) hle
  refine ⟨heq.trans ?_, rfl, fun hp' => ?_⟩
  · rw [hinv.send.chunk_agrees hp hm, State.withSend_send, apply_ite (SendContext.withBuf · m)]
    rfl
  · rw [State.withSend_send] at hp' ⊢
    split_ifs at hp' ⊢ with hok
    · exact hm.shown hp
    · cases hp'

theorem pollSend_keepsSendAgreement : KeepsSendAgreement pollSend := by
  intro s s' c hinv hc hs'
  obtain ⟨m, rfl⟩ := hc.exists_withBuf
  rcases pollSend_next hs' with ⟨hp, rfl⟩ | ⟨hp, hm, rfl⟩ | ⟨hp, hm, u, hu, rfl⟩
  · exact ⟨_, pollSend_outside (s := s'.withSend (s'.send.withBuf m)) hp, hc⟩
  · obtain ⟨c', hc', hagree⟩ := pollTimeoutBs_agrees hc
    exact ⟨c', by rw [pollSend_held (s := s.withSend (s.send.withBuf m)) hp hm, hc'], hagree⟩
  · obtain ⟨ht, hu'⟩ := pollConsecutive_agrees hinv hp hc hu
    obtain ⟨c', hc', hagree⟩ := pollTimeoutBs_agrees hu'
    exact ⟨c', by rw [pollSend_sending (s := s.withSend (s.send.withBuf m)) hp hm, ht, andThen_of_next, hc'], hagree⟩

theorem pollRecv_agrees {s t : State} (h : s.Agrees t) : (pollRecv s).Agrees (pollRecv t) := by
  obtain ⟨c, d, rfl, hc, hd⟩ := h.exists_contexts
  obtain ⟨m, rfl⟩ := hd.exists_withBuf
  by_cases hpass : s.recv.status = .inProgress ∧ after s.now s.recv.timerCr = true
  · obtain ⟨hp, ha⟩ := hpass
    rw [pollRecv_passed hp ha, pollRecv_passed (s := (s.withSend c).withRecv (s.recv.withBuf m)) hp ha]
    exact ⟨hc, RecvContext.agrees_of_idle rfl m, rfl⟩
  · have hpend : s.recv.status ≠ .inProgress ∨ after s.now s.recv.timerCr = false := by
      rwa [not_and_or, Bool.not_eq_true] at hpass
    rw [pollRecv_pending hpend, pollRecv_pending (s := (s.withSend c).withRecv (s.recv.withBuf m)) hpend]
    exact h

theorem execPoll_keepsAgreement : KeepsAgreement execPoll := by
  intro s t s' hinv hst hs'
  obtain ⟨u, hu, rfl⟩ := execPoll_next hs'
  obtain ⟨v, hv, huv⟩ := pollSend_keepsSendAgreement.keepsAgreement pollSend_ignoresRecv s t u hinv hst hu
  exact ⟨pollRecv v, execPoll_of_pollSend hv, pollRecv_agrees huv⟩

/-! ### Frames of the receive side (42_receive.md): the bytes up to the position have been written for the message -/

theorem rxSingle_keepsRecvAgreement (data : List Byte) : KeepsRecvAgreement (rxSingle data) := by
  intro s s' d _ hd hs'
  obtain ⟨m, rfl⟩ := hd.exists_withBuf
  obtain ⟨hle, rfl⟩ := rxSingle_next hs'
  refine ⟨_, rxSingle_eq (s := s.withRecv (s.recv.withBuf m)) hle, rfl, fun _ a ha => ?_⟩
  have hlen : a < data.length := Nat.lt_of_lt_of_le ha (Nat.mod_le _ _)
  exact (Memory.get_write_zero s.recv.buf hlen).trans (Memory.get_write_zero m hlen).symm

theorem execFf_keepsRecvAgreement (n : BitVec 12) {data : List Byte} (h6 : data.length = 6) :
    KeepsRecvAgreement (execFf n data) := by
  intro s s' d _ hd hs'
  obtain ⟨m, rfl⟩ := hd.exists_withBuf
  by_cases hn : s.cfg.maxMsg < n.toNat
  · cases (execFf_over hn).symm.trans hs'
    exact ⟨_, execFf_over (s := s.withRecv (s.recv.withBuf m)) hn, RecvContext.agrees_of_idle rfl m⟩
  · have hfits := Nat.le_of_not_lt hn
    cases (execFf_fits hfits h6).symm.trans hs'
    refine ⟨_, execFf_fits (s := s.withRecv (s.recv.withBuf m)) hfits h6, rfl, fun _ a ha => ?_⟩
    have hlen : a < data.length := Nat.lt_of_lt_of_eq ha h6.symm
    exact (Memory.get_write_zero s.recv.buf hlen).trans (Memory.get_write_zero m hlen).symm

theorem RecvContext.Inv.afterMatching_agrees {cfg : Config} {c : RecvContext} {m : Memory} (h : c.Inv cfg)
    (hp : c.status = .inProgress) (hm : c.Agrees (c.withBuf m)) (now : Time) (data : List Byte) :
    (c.afterMatching cfg now data).Agrees
      ((c.afterMatching cfg now data).withBuf (m.write c.offset.toNat (data.take (c.takeLength data)))) := by
  refine ⟨rfl, fun _ a ha => ?_⟩
  have hbefore : c.status ≠ .idle := by rw [hp]; nofun
  rw [h.afterMatching_offset] at ha
  show (c.buf.write _ _).get a = (m.write _ _).get a
  rw [Memory.get_write, Memory.get_write]
  by_cases hin : c.offset.toNat ≤ a ∧ a - c.offset.toNat < (data.take (c.takeLength data)).length
  · rw [dif_pos hin, dif_pos hin]
  · rw [dif_neg hin, dif_neg hin]
    have htake : (data.take (c.takeLength data)).length = c.takeLength data :=
      List.length_take_of_le (Nat.min_le_left _ _)
    exact hm.shown hbefore a (by omega)

theorem rxProgress_agrees {s : State} {m : Memory} (hp : s.recv.status = .inProgress)
    (hm : s.recv.Agrees (s.recv.withBuf m)) :
    ∃ d', rxProgress (s.withRecv (s.recv.withBuf m)) = (rxProgress s).withRecv d' ∧
      (rxProgress s).recv.Agrees d' := by
  have hbefore : s.recv.status ≠ .idle := by rw [hp]; nofun
  rcases rxProgress_cases s with ⟨hd, e⟩ | ⟨hd, hz, e⟩ | ⟨hd, hz, e⟩
  · rw [e, rxProgress_complete (s := s.withRecv (s.recv.withBuf m)) hd]
    exact ⟨_, rfl, rfl, fun _ => hm.shown hbefore⟩
  · rw [e, rxProgress_reload (s := s.withRecv (s.recv.withBuf m)) hd hz]
    exact ⟨_, rfl, rfl, fun _ => hm.shown hbefore⟩
  · rw [e, rxProgress_count (s := s.withRecv (s.recv.withBuf m)) hd hz]
    exact ⟨_, rfl, rfl, fun _ => hm.shown hbefore⟩

theorem rxConsecutive_keepsRecvAgreement (sn : Nibble) (data : List Byte) :
    KeepsRecvAgreement (rxConsecutive sn data) := by
  intro s s' d hinv hd hs'
  obtain ⟨m, rfl⟩ := hd.exists_withBuf
  rcases rxConsecutive_next hs' with ⟨hp, rfl⟩ | ⟨hp, hsn, rfl⟩ | ⟨hp, rfl, hle, rfl⟩
  · exact ⟨_, rxConsecutive_outside (s := s.withRecv (s.recv.withBuf m)) hp, rfl, hd.shown⟩
  · exact ⟨_, rxConsecutive_wrong (s := s.withRecv (s.recv.withBuf m)) hp hsn, RecvContext.agrees_of_idle rfl m⟩
  · obtain ⟨d', hd', hagree⟩ := rxProgress_agrees (s := s.withRecv (s.recv.afterMatching s.cfg s.now data)) hp
      (hinv.recv.afterMatching_agrees hp hd s.now data)
    have hmatch := rxConsecutive_matching (s := s.withRecv (s.recv.withBuf m)) (data := data) hp
    have hanswer := rxMatching_eq (s := s.withRecv (s.recv.withBuf m)) (data := data) hle
    exact ⟨d', hmatch.trans (hanswer.trans (congrArg Host.Outcome.next hd')), hagree⟩

/-! ### RECV (42_receive.md R200): a held message is whole -/

theorem RecvContext.Inv.drain_agrees {cfg : Config} {c : RecvContext} {m : Memory} (h : c.Inv cfg)
    (hf : c.status = .full) (hm : c.Agrees (c.withBuf m)) (cap : BitVec 16) :
    m.bytes 0 (c.drainLength cap) = c.buf.bytes 0 (c.drainLength cap) := by
  have hbefore : c.status ≠ .idle := by rw [hf]; nofun
  refine Memory.bytes_congr fun a _ hmax => (hm.shown hbefore a ?_).symm
  rw [RecvContext.drainLength] at hmax
  rw [h.full_whole hf]
  omega

theorem execRecv_keepsRecvAgreement (cap : BitVec 16) : KeepsRecvAgreement (execRecv cap) := by
  intro s s' d hinv hd hs'
  obtain ⟨m, rfl⟩ := hd.exists_withBuf
  rcases execRecv_next hs' with ⟨hf, rfl⟩ | ⟨hf, rfl⟩
  · exact ⟨_, execRecv_outside (s := s.withRecv (s.recv.withBuf m)) hf, hd⟩
  · have hbytes := hinv.recv.drain_agrees hf hd cap
    refine ⟨_, ?_, RecvContext.agrees_of_idle rfl m⟩
    rw [execRecv_full (s := s.withRecv (s.recv.withBuf m)) hf hinv.recv.size_le_maxMsg, ← hbytes]
    rfl

/-! ### INIT, the instructions and the step -/

theorem execInit_keepsAgreement (a b : Ident) : KeepsAgreement (execInit a b) := by
  intro s t s' _ hst hs'
  obtain ⟨c, d, rfl, -, -⟩ := hst.exists_contexts
  cases hs'
  exact ⟨_, rfl, SendContext.agrees_of_resting (by nofun) c.buf, RecvContext.agrees_of_idle rfl d.buf, rfl⟩

theorem exec_keepsAgreement {i : Instr} (hi : i.wellFormed = true) : KeepsAgreement (exec i) :=
  exec_of_operations i
    (drop := fun s t s' _ hst hs' => ⟨t, rfl, by cases hs'; exact hst⟩)
    (single := fun data _ => (rxSingle_keepsRecvAgreement data).keepsAgreement (rxSingle_readsOnlySendId data))
    (first := fun n data h =>
      (execFf_keepsRecvAgreement n (h.first_length hi)).keepsAgreement (execFf_readsOnlySendId n data))
    (consecutive := fun sn data =>
      (rxConsecutive_keepsRecvAgreement sn data).keepsAgreement (rxConsecutive_readsOnlySendId sn data))
    (flowControl := fun fs bs st =>
      (rxFlowControl_keepsSendAgreement fs bs st).keepsAgreement (rxFlowControl_ignoresRecv fs bs st))
    (init := fun a b _ => execInit_keepsAgreement a b)
    (send := fun p _ => (execSend_keepsSendAgreement p).keepsAgreement (execSend_ignoresRecv p))
    (poll := execPoll_keepsAgreement)
    (recv := fun cap => (execRecv_keepsRecvAgreement cap).keepsAgreement (execRecv_readsOnlySendId cap))

theorem State.Agrees.latch {s t : State} (h : s.Agrees t) (r : Request) (rest : List Request) :
    (s.latch r rest).Agrees (t.latch r rest) :=
  ⟨h.send, h.recv, congrArg (State.latch · r rest) h.rest⟩

theorem State.Agrees.pending {s t : State} (h : s.Agrees t) : t.pending = s.pending :=
  (congrArg State.pending h.rest).symm

/-- Settles O45: the step on agreeing states runs the same instruction, and every instruction keeps the agreement. -/
theorem unwrittenBytesAreNeverShown : Obligations.UnwrittenBytesAreNeverShown := by
  intro s t s' hinv hst hs'
  rcases step_next hs' with ⟨hp, rfl⟩ | ⟨r, rest, hp, ⟨i, hd, hi⟩ | ⟨hd | ⟨why, hd⟩, rfl⟩⟩
  · exact ⟨t, step_of_nothing (hst.pending.trans hp), hst⟩
  · obtain ⟨t', ht', hagree⟩ :=
      exec_keepsAgreement (decode_wellFormed hd) _ _ s' (hinv.latch r rest) (hst.latch r rest) hi
    exact ⟨t', (step_of_decode (hst.pending.trans hp) hd).trans ht', hagree⟩
  · exact ⟨_, step_of_noOperation (hst.pending.trans hp) hd, hst.latch r rest⟩
  · exact ⟨_, step_of_badFrame (hst.pending.trans hp) hd, hst.latch r rest⟩

end Sys2Proof.Machine

/-! # No rule reads a result or the receive identifier (10_state.md R33, R42)

An operation on the erased state and on the state itself answer alike up to erasing. So two states that erase alike are
taken to states that erase alike. -/

namespace Sys2Proof.Machine

/-- The operation answers alike, up to erasing, from the erased state. -/
def IgnoresUnread (op : State → Result) : Prop :=
  ∀ s : State, andThen (op s.eraseUnread) State.eraseUnread = andThen (op s) State.eraseUnread

theorem IgnoresUnread.transfers {op : State → Result} (h : IgnoresUnread op) {s s' t : State}
    (hs : s.eraseUnread = s'.eraseUnread) (ht : op s = .next t) :
    ∃ t', op s' = .next t' ∧ t.eraseUnread = t'.eraseUnread := by
  have hanswer : andThen (op s') State.eraseUnread = .next t.eraseUnread := by
    rw [← h s', ← hs, h s, ht, andThen_of_next]
  obtain ⟨t', ht', e⟩ := andThen_next hanswer
  exact ⟨t', ht', e.symm⟩

/-- An operation followed by a part that ignores the unread registers too. -/
theorem IgnoresUnread.andThen {op : State → Result} (h : IgnoresUnread op) {k : State → State}
    (hk : ∀ s, (k s.eraseUnread).eraseUnread = (k s).eraseUnread) : IgnoresUnread fun s => andThen (op s) k := by
  have push : ∀ r : Result, Machine.andThen (Machine.andThen r k) State.eraseUnread =
      Machine.andThen (Machine.andThen r State.eraseUnread) fun u => (k u).eraseUnread := by
    intro r
    cases r with
    | next u => exact congrArg Host.Outcome.next (hk u).symm
    | fault f => rfl
    | refused f => rfl
  intro s
  rw [push, push, h s]

/-! ### The operations -/

theorem rxSingle_ignoresUnread (data : List Byte) : IgnoresUnread (rxSingle data) := fun s => by
  rw [rxSingle, rxSingle, andThen_withBuffer, andThen_withBuffer]; rfl

theorem execFf_ignoresUnread (n : BitVec 12) (data : List Byte) : IgnoresUnread (execFf n data) := fun s => by
  by_cases hn : s.cfg.maxMsg < n.toNat
  · rw [execFf_over hn, execFf_over (s := s.eraseUnread) hn]; rfl
  · rw [execFf, execFf, if_neg hn, if_neg (show ¬ s.eraseUnread.cfg.maxMsg < n.toNat from hn), rxFirst, rxFirst,
      andThen_withBuffer, andThen_withBuffer]
    rfl

theorem rxProgress_eraseUnread (s : State) : (rxProgress s.eraseUnread).eraseUnread = (rxProgress s).eraseUnread := by
  rcases rxProgress_cases s with ⟨hd, e⟩ | ⟨hd, hz, e⟩ | ⟨hd, hz, e⟩
  · rw [e, rxProgress_complete (s := s.eraseUnread) hd]; rfl
  · rw [e, rxProgress_reload (s := s.eraseUnread) hd hz]; rfl
  · rw [e, rxProgress_count (s := s.eraseUnread) hd hz]; rfl

theorem rxMatching_ignoresUnread (data : List Byte) : IgnoresUnread (rxMatching data) := fun s => by
  rw [rxMatching, rxMatching, andThen_withBuffer, andThen_withBuffer]
  congr 1; funext buf
  refine congrArg Host.Outcome.next ?_
  rw [← rxProgress_eraseUnread, ← rxProgress_eraseUnread (s.withRecv _)]
  rfl

theorem rxConsecutive_ignoresUnread (sn : Nibble) (data : List Byte) :
    IgnoresUnread (rxConsecutive sn data) := fun s => by
  by_cases hp : s.recv.status = .inProgress
  · by_cases hs : sn = s.recv.sn
    · subst hs
      have herased : rxConsecutive s.recv.sn data s.eraseUnread = rxMatching data s.eraseUnread :=
        rxConsecutive_matching (s := s.eraseUnread) hp
      rw [rxConsecutive_matching hp, herased, rxMatching_ignoresUnread data s]
    · rw [rxConsecutive_wrong hp hs, rxConsecutive_wrong (s := s.eraseUnread) hp hs]; rfl
  · rw [rxConsecutive_outside hp, rxConsecutive_outside (s := s.eraseUnread) hp]; rfl

/-- What a flow-control frame does to the context depends on no result. -/
theorem SendContext.flowAct_result (c : SendContext) (r : ProtocolResult) (w : Nat) (fs : Nibble) (bs st : Byte) :
    ({ ({ c with result := r } : SendContext).flowAct w fs bs st with result := .ok } : SendContext) =
      { c.flowAct w fs bs st with result := .ok } := by
  simp only [SendContext.flowAct, SendContext.flowWait]
  split_ifs <;> rfl

theorem rxFlowControl_ignoresUnread (fs : Nibble) (bs st : Byte) : IgnoresUnread (rxFlowControl fs bs st) := fun s => by
  by_cases hp : s.send.status = .inProgress
  · rw [rxFlowControl_inside hp, rxFlowControl_inside (s := s.eraseUnread) hp]
    exact congrArg (fun c => Host.Outcome.next (s.eraseUnread.withSend c))
      (SendContext.flowAct_result (s.send.armBs s.cfg s.now) .ok s.cfg.maxWft fs bs st)
  · rw [rxFlowControl_outside hp, rxFlowControl_outside (s := s.eraseUnread) hp]; rfl

theorem execSend_ignoresUnread (p : List Byte) : IgnoresUnread (execSend p) := fun s => by
  by_cases hover : s.cfg.maxMsg < p.length
  · rw [execSend_over hover, execSend_over (s := s.eraseUnread) hover]; rfl
  by_cases hshort : p.length ≤ 7
  · rw [execSend_short hshort, execSend_short hshort, andThen_ite, andThen_ite]; rfl
  · have hlong : 8 ≤ p.length := by omega
    have hp : p.length ≤ s.cfg.maxMsg := Nat.le_of_not_lt hover
    rw [execSend_long hlong hp, execSend_long (s := s.eraseUnread) hlong hp, andThen_ite, andThen_ite]; rfl

theorem pollConsecutive_ignoresUnread : IgnoresUnread pollConsecutive := fun s => by
  rw [pollConsecutive, pollConsecutive, andThen_withBytes, andThen_withBytes]
  simp only [andThen_ite]; rfl

theorem pollTimeoutBs_eraseUnread (s : State) :
    (pollTimeoutBs s.eraseUnread).eraseUnread = (pollTimeoutBs s).eraseUnread := by
  cases ha : after s.now s.send.timerBs with
  | true => rw [pollTimeoutBs_passed ha, pollTimeoutBs_passed (s := s.eraseUnread) ha]; rfl
  | false => rw [pollTimeoutBs_pending ha, pollTimeoutBs_pending (s := s.eraseUnread) ha]; rfl

theorem pollRecv_eraseUnread (s : State) : (pollRecv s.eraseUnread).eraseUnread = (pollRecv s).eraseUnread := by
  rw [pollRecv_eq, pollRecv_eq]
  by_cases h : s.recv.status = .inProgress ∧ after s.now s.recv.timerCr = true
  · rw [if_pos h, if_pos (show s.eraseUnread.recv.status = .inProgress ∧
      after s.eraseUnread.now s.eraseUnread.recv.timerCr = true from h)]
    rfl
  · rw [if_neg h, if_neg (show ¬ (s.eraseUnread.recv.status = .inProgress ∧
      after s.eraseUnread.now s.eraseUnread.recv.timerCr = true) from h)]
    rfl

theorem pollSend_ignoresUnread : IgnoresUnread pollSend := fun s => by
  by_cases hp : s.send.status = .inProgress
  · cases hm : s.send.maySend s.now with
    | false =>
      rw [pollSend_held hp hm, pollSend_held (s := s.eraseUnread) hp hm]
      exact congrArg Host.Outcome.next (pollTimeoutBs_eraseUnread s)
    | true =>
      rw [pollSend_sending hp hm, pollSend_sending (s := s.eraseUnread) hp hm]
      exact pollConsecutive_ignoresUnread.andThen pollTimeoutBs_eraseUnread s
  · rw [pollSend_outside hp, pollSend_outside (s := s.eraseUnread) hp]; rfl

theorem execPoll_ignoresUnread : IgnoresUnread execPoll :=
  pollSend_ignoresUnread.andThen pollRecv_eraseUnread

theorem execRecv_ignoresUnread (cap : BitVec 16) : IgnoresUnread (execRecv cap) := fun s => by
  rw [execRecv, execRecv, andThen_ite, andThen_ite, andThen_withBytes, andThen_withBytes]; rfl

theorem exec_ignoresUnread (i : Instr) : IgnoresUnread (exec i) :=
  exec_of_operations i
    (drop := fun _ => rfl)
    (single := fun data _ => rxSingle_ignoresUnread data)
    (first := fun n data _ => execFf_ignoresUnread n data)
    (consecutive := rxConsecutive_ignoresUnread)
    (flowControl := rxFlowControl_ignoresUnread)
    (init := fun _ _ _ _ => rfl)
    (send := fun p _ => execSend_ignoresUnread p)
    (poll := execPoll_ignoresUnread)
    (recv := execRecv_ignoresUnread)

/-- Settles O44. -/
theorem resultsAndReceiveIdDecideNothing : Obligations.ResultsAndReceiveIdDecideNothing :=
  fun i _ _ _ hs ht => (exec_ignoresUnread i).transfers hs ht

/-! # What a step transmits (60_exceptions.md R262, 42_receive.md R186) -/

/-- The frames the block transmits with a configuration. -/
inductive BlockFrame (cfg : Config) : List Byte → Prop where
  | single (p : List Byte) (hp : p.length ≤ 7) : BlockFrame cfg (encodeSingle cfg.pad p)
  | first (n : BitVec 12) (d : List Byte) (hn : 8 ≤ n.toNat) (hd : d.length = 6) : BlockFrame cfg (encodeFirst n d)
  | consecutive (sn : Nibble) (c : List Byte) (hc : c.length ≤ 7) : BlockFrame cfg (encodeConsecutive cfg.pad sn c)
  | continue_ : BlockFrame cfg (encodeFlowControl cfg.pad fsContinue (BitVec.ofNat 8 cfg.bsDefault) cfg.stDefault)
  | overflow : BlockFrame cfg (encodeFlowControl cfg.pad fsOverflow 0 0)

/-- The operation makes no transmit attempt, or one of such a frame under `send.id` with the answer at the port. -/
def TransmitsAtMostOnce (op : State → Result) : Prop :=
  ∀ s t : State, op s = .next t → t.trace = s.trace ∨
    ∃ f, BlockFrame s.cfg f ∧ t.trace = s.trace ++ [{ id := s.send.id, frame := f, ok := s.txOk }]

theorem rxProgress_trace (s : State) :
    (rxProgress s).trace = s.trace ∨ (rxProgress s).trace = s.transmitContinue.trace := by
  rcases rxProgress_cases s with ⟨-, e⟩ | ⟨-, -, e⟩ | ⟨-, -, e⟩
  · rw [e]; exact .inl rfl
  · rw [e]; exact .inr rfl
  · rw [e]; exact .inl rfl

theorem execFf_transmitsAtMostOnce (n : BitVec 12) (data : List Byte) : TransmitsAtMostOnce (execFf n data) := by
  intro s t ht
  by_cases hn : s.cfg.maxMsg < n.toNat
  · cases (execFf_over hn).symm.trans ht
    exact .inr ⟨_, .overflow, rfl⟩
  · obtain ⟨-, rfl⟩ := rxFirst_next ((if_neg hn).symm.trans ht)
    exact .inr ⟨_, .continue_, rfl⟩

theorem rxConsecutive_transmitsAtMostOnce (sn : Nibble) (data : List Byte) :
    TransmitsAtMostOnce (rxConsecutive sn data) := by
  intro s t ht
  rcases rxConsecutive_next ht with ⟨-, rfl⟩ | ⟨-, -, rfl⟩ | ⟨-, -, -, rfl⟩
  · exact .inl rfl
  · exact .inl rfl
  · rcases rxProgress_trace (s.withRecv (s.recv.afterMatching s.cfg s.now data)) with e | e
    · exact .inl e
    · exact .inr ⟨_, .continue_, e⟩

theorem execSend_transmitsAtMostOnce (p : List Byte) : TransmitsAtMostOnce (execSend p) := by
  intro s t ht
  by_cases hover : s.cfg.maxMsg < p.length
  · cases (execSend_over hover).symm.trans ht
    exact .inl rfl
  by_cases hshort : p.length ≤ 7
  · rw [execSend_short hshort] at ht
    refine .inr ⟨_, .single p hshort, ?_⟩
    split_ifs at ht <;> cases ht <;> rfl
  · have hp : p.length ≤ s.cfg.maxMsg := Nat.le_of_not_lt hover
    have hn : 8 ≤ (BitVec.ofNat 12 p.length).toNat := by rw [toNat_ofNat_of_le_maxMsg hp]; omega
    rw [execSend_long (by omega) hp] at ht
    refine .inr ⟨_, .first (BitVec.ofNat 12 p.length) (p.take 6) hn (List.length_take_of_le (by omega)), ?_⟩
    split_ifs at ht <;> cases ht <;> rfl

@[simp] theorem pollTimeoutBs_trace (s : State) : (pollTimeoutBs s).trace = s.trace := by
  rw [pollTimeoutBs_eq, State.withSend_trace]

/-- A POLL that changes the record of attempts sends one consecutive frame. -/
theorem execPoll_trace {s t : State} (ht : execPoll s = .next t) :
    t.trace = s.trace ∨ s.send.maySend s.now = true ∧
      t.trace = s.trace ++ [{ id := s.send.id
                              frame := encodeConsecutive s.cfg.pad s.send.sn
                                (s.send.buf.bytes s.send.offset.toNat s.send.chunkLength)
                              ok := s.txOk }] := by
  obtain ⟨u, hu, -, e⟩ := execPoll_send_trace ht
  rw [e]
  rcases pollSend_next hu with ⟨-, rfl⟩ | ⟨-, -, rfl⟩ | ⟨-, hm, v, hv, rfl⟩
  · exact .inl rfl
  · exact .inl (pollTimeoutBs_trace s)
  · obtain ⟨-, rfl⟩ := pollConsecutive_next hv
    exact .inr ⟨hm, pollTimeoutBs_trace _⟩

theorem execPoll_transmitsAtMostOnce : TransmitsAtMostOnce execPoll := by
  intro s t ht
  rcases execPoll_trace ht with e | ⟨-, e⟩
  · exact .inl e
  · exact .inr ⟨_, .consecutive _ _ ((Memory.length_bytes ..).trans_le (Nat.min_le_left _ _)), e⟩

theorem exec_transmitsAtMostOnce (i : Instr) : TransmitsAtMostOnce (exec i) :=
  exec_of_operations i
    (drop := fun _ _ ht => .inl (by cases ht; rfl))
    (single := fun _ _ _ _ ht => .inl (by obtain ⟨-, rfl⟩ := rxSingle_next ht; rfl))
    (first := fun n data _ => execFf_transmitsAtMostOnce n data)
    (consecutive := rxConsecutive_transmitsAtMostOnce)
    (flowControl := fun _ _ _ _ _ ht => .inl (by rw [rxFlowControl_eq] at ht; split_ifs at ht <;> cases ht <;> rfl))
    (init := fun _ _ _ _ _ ht => .inl (by cases ht; rfl))
    (send := fun p _ => execSend_transmitsAtMostOnce p)
    (poll := execPoll_transmitsAtMostOnce)
    (recv := fun _ _ _ ht => .inl (by rcases execRecv_next ht with ⟨-, rfl⟩ | ⟨-, rfl⟩ <;> rfl))

/-! ### The length of each frame (30_encoding.md R84) -/

theorem length_encodeSingle (padMode : Bool) {p : List Byte} (hp : p.length ≤ 7) :
    (encodeSingle padMode p).length = if padMode then 8 else p.length + 1 :=
  length_padFrame (_ :: p) (Nat.succ_le_succ hp) padMode

theorem length_encodeFirst (n : BitVec 12) {d : List Byte} (hd : d.length = 6) : (encodeFirst n d).length = 8 :=
  congrArg (· + 2) hd

theorem length_encodeConsecutive (padMode : Bool) (sn : Nibble) {c : List Byte} (hc : c.length ≤ 7) :
    (encodeConsecutive padMode sn c).length = if padMode then 8 else c.length + 1 :=
  length_padFrame (_ :: c) (Nat.succ_le_succ hc) padMode

theorem length_encodeFlowControl (padMode : Bool) (fs : Nibble) (bs : Byte) (ms : Nat) :
    (encodeFlowControl padMode fs bs ms).length = if padMode then 8 else 3 :=
  length_padFrame [_, _, _] (by simp) padMode

/-- The length of a frame of `n` bytes, 1 to 8, with padding or without. -/
theorem frame_length_range {padMode : Bool} {n len : Nat} (h : len = if padMode then 8 else n) (h1 : 1 ≤ n)
    (h8 : n ≤ 8) :
    1 ≤ len ∧ len ≤ 8 ∧ (padMode = true → len = 8) ∧ (padMode = false → len = n) := by
  cases padMode with
  | true => exact ⟨by simp [h], by simp [h], fun _ => h, nofun⟩
  | false => exact ⟨h1.trans_eq h.symm, h.trans_le h8, nofun, fun _ => h⟩

/-- Settles O46: every operation transmits at most once, and each shape has its length. -/
theorem atMostOneFramePerStep : Obligations.AtMostOneFramePerStep := by
  intro s t r rest hp ht
  rcases step_next ht with ⟨hnil, -⟩ | ⟨r', rest', hp', ⟨i, -, hi⟩ | ⟨-, rfl⟩⟩
  · cases hp.symm.trans hnil
  · cases hp.symm.trans hp'
    rcases exec_transmitsAtMostOnce i _ _ hi with e | ⟨f, hf, e⟩
    · exact .inl e
    refine .inr ⟨f, e, ?_⟩
    replace hf : BlockFrame s.cfg f := hf
    cases hf with
    | single p hp =>
      obtain ⟨h1, h8, hpad, hnat⟩ := frame_length_range (length_encodeSingle s.cfg.pad hp) (by omega) (by omega)
      exact ⟨h1, h8, hpad, .inl ⟨p, hp, rfl, hnat⟩⟩
    | first n d hn hd =>
      have hlen := length_encodeFirst n hd
      exact ⟨by omega, by omega, fun _ => hlen, .inr (.inl ⟨n, d, hn, hd, rfl, hlen⟩)⟩
    | consecutive sn c hc =>
      obtain ⟨h1, h8, hpad, hnat⟩ := frame_length_range (length_encodeConsecutive s.cfg.pad sn hc) (by omega) (by omega)
      exact ⟨h1, h8, hpad, .inr (.inr (.inl ⟨sn, c, hc, rfl, hnat⟩))⟩
    | continue_ =>
      obtain ⟨h1, h8, hpad, hnat⟩ := frame_length_range (length_encodeFlowControl s.cfg.pad fsContinue
        (BitVec.ofNat 8 s.cfg.bsDefault) s.cfg.stDefault) (by omega) (by omega)
      exact ⟨h1, h8, hpad, .inr (.inr (.inr ⟨.inl rfl, hnat⟩))⟩
    | overflow =>
      obtain ⟨h1, h8, hpad, hnat⟩ :=
        frame_length_range (length_encodeFlowControl s.cfg.pad fsOverflow 0 0) (by omega) (by omega)
      exact ⟨h1, h8, hpad, .inr (.inr (.inr ⟨.inr rfl, hnat⟩))⟩
  · exact .inl rfl

end Sys2Proof.Machine

/-! # What the instructions leave alone (41_send.md R168, 10_state.md R45, 70_reset_and_hazards.md R283)

The receive side never writes the send context and the send side never writes the receive context (R11), so that each
statement is about the operations of one direction. -/

namespace Sys2Proof.Machine

/-! ### Outside a send (41_send.md R168) -/

/-- Outside a send the operation leaves the send context as it is. -/
def LeavesRestingSend (op : State → Result) : Prop :=
  ∀ s t : State, s.send.status ≠ .inProgress → op s = .next t → t.send = s.send

theorem ReadsOnlySendId.leavesRestingSend {op : State → Result} (h : ReadsOnlySendId op) : LeavesRestingSend op :=
  fun _ _ _ ht => h.send_eq ht

theorem exec_leavesRestingSend {i : Instr} (hsend : ∀ p, i ≠ .send p) (hinit : ∀ a b, i ≠ .init a b) :
    LeavesRestingSend (exec i) :=
  exec_of_operations i
    (drop := fun _ _ _ ht => by cases ht; rfl)
    (single := fun data _ => (rxSingle_readsOnlySendId data).leavesRestingSend)
    (first := fun n data _ => (execFf_readsOnlySendId n data).leavesRestingSend)
    (consecutive := fun sn data => (rxConsecutive_readsOnlySendId sn data).leavesRestingSend)
    (flowControl := fun fs bs st _ _ hs ht => by cases (rxFlowControl_outside hs fs bs st).symm.trans ht; rfl)
    (init := fun a b h => absurd h (hinit a b))
    (send := fun p h => absurd h (hsend p))
    (poll := fun _ _ hs ht => (execPoll_send_trace_outside hs ht).1)
    (recv := fun cap => (execRecv_readsOnlySendId cap).leavesRestingSend)

/-- Settles O47. -/
theorem onlySendAndInitLeaveTheRestingStates : Obligations.OnlySendAndInitLeaveTheRestingStates :=
  fun _ _ _ hs hsend hinit ht => exec_leavesRestingSend hsend hinit _ _ hs ht

/-! ### The size of a transfer in flight (10_state.md R45) -/

/-- A send the operation leaves in progress was in progress before, of the same size. -/
def FixesSendSize (op : State → Result) : Prop :=
  ∀ s t : State, op s = .next t → t.send.status = .inProgress →
    s.send.status = .inProgress ∧ t.send.size = s.send.size

theorem ReadsOnlySendId.fixesSendSize {op : State → Result} (h : ReadsOnlySendId op) : FixesSendSize op :=
  fun _ _ ht hp => by rw [h.send_eq ht] at hp ⊢; exact ⟨hp, rfl⟩

theorem rxFlowControl_fixesSendSize (fs : Nibble) (bs st : Byte) : FixesSendSize (rxFlowControl fs bs st) := by
  intro s t ht hp
  by_cases hs : s.send.status = .inProgress
  · cases (rxFlowControl_inside hs fs bs st).symm.trans ht
    exact ⟨hs, SendContext.flowAct_size ..⟩
  · cases (rxFlowControl_outside hs fs bs st).symm.trans ht
    exact ⟨hp, rfl⟩

@[simp] theorem pollTimeoutBs_size (s : State) : (pollTimeoutBs s).send.size = s.send.size := by
  rw [pollTimeoutBs_eq, State.withSend_send]
  split_ifs <;> rfl

theorem execPoll_fixesSendSize : FixesSendSize execPoll := by
  intro s t ht hp
  by_cases hs : s.send.status = .inProgress
  · obtain ⟨u, hu, e, -⟩ := execPoll_send_trace ht
    refine ⟨hs, ?_⟩
    rw [e]
    rcases pollSend_next hu with ⟨-, rfl⟩ | ⟨-, -, rfl⟩ | ⟨-, -, v, hv, rfl⟩
    · rfl
    · exact pollTimeoutBs_size s
    · obtain ⟨-, rfl⟩ := pollConsecutive_next hv
      rw [pollTimeoutBs_size, State.withSend_send]
      split_ifs <;> rfl
  · rw [(execPoll_send_trace_outside hs ht).1] at hp
    exact absurd hp hs

theorem exec_fixesSendSize {i : Instr} (hsend : ∀ p, i ≠ .send p) : FixesSendSize (exec i) :=
  exec_of_operations i
    (drop := fun _ _ ht hp => by cases ht; exact ⟨hp, rfl⟩)
    (single := fun data _ => (rxSingle_readsOnlySendId data).fixesSendSize)
    (first := fun n data _ => (execFf_readsOnlySendId n data).fixesSendSize)
    (consecutive := fun sn data => (rxConsecutive_readsOnlySendId sn data).fixesSendSize)
    (flowControl := rxFlowControl_fixesSendSize)
    (init := fun _ _ _ _ _ ht hp => by cases ht; cases hp)
    (send := fun p h => absurd h (hsend p))
    (poll := execPoll_fixesSendSize)
    (recv := fun cap => (execRecv_readsOnlySendId cap).fixesSendSize)

/-- A reception the operation leaves in progress was in progress before, of the same size, but where a first frame is
accepted. -/
def FixesRecvSize (accepts : State → Prop) (op : State → Result) : Prop :=
  ∀ s t : State, ¬ accepts s → op s = .next t → t.recv.status = .inProgress →
    s.recv.status = .inProgress ∧ t.recv.size = s.recv.size

theorem IgnoresRecv.fixesRecvSize {op : State → Result} (h : IgnoresRecv op) (accepts : State → Prop) :
    FixesRecvSize accepts op :=
  fun _ _ _ ht hp => by rw [h.recv_eq ht] at hp ⊢; exact ⟨hp, rfl⟩

/-- The end of RX_CF writes the status, the block count and the record of attempts only. -/
theorem rxProgress_writes (s : State) : ∃ status count trace,
    rxProgress s = { s with recv := { s.recv with status := status, bsCount := count }, trace := trace } := by
  rcases rxProgress_cases s with ⟨-, e⟩ | ⟨-, -, e⟩ | ⟨-, -, e⟩ <;> exact ⟨_, _, _, e⟩

theorem rxConsecutive_fixesRecvSize (accepts : State → Prop) (sn : Nibble) (data : List Byte) :
    FixesRecvSize accepts (rxConsecutive sn data) := by
  intro s t _ ht hp
  rcases rxConsecutive_next ht with ⟨hs, rfl⟩ | ⟨hs, -, rfl⟩ | ⟨hs, -, -, rfl⟩
  · exact absurd hp hs
  · cases hp
  · obtain ⟨status, count, trace, e⟩ := rxProgress_writes (s.withRecv (s.recv.afterMatching s.cfg s.now data))
    rw [e]
    exact ⟨hs, rfl⟩

theorem execPoll_fixesRecvSize (accepts : State → Prop) : FixesRecvSize accepts execPoll := by
  intro s t _ ht hp
  rw [execPoll_recv ht, pollRecv_eq, State.withRecv_recv] at hp ⊢
  split_ifs at hp ⊢
  · cases hp
  · exact ⟨hp, rfl⟩

/-- The instruction presents a first frame that the decoder accepts in the state, by itself or to RX. -/
def StartsReception (i : Instr) (s : State) : Prop :=
  (∃ n d, i = .ff n d) ∨ ∃ raw n d, i = .rx raw ∧ decodeFrame s.cfg.maxMsg raw = .first n d

theorem startsReception_of_presents {i : Instr} {n : BitVec 12} {data : List Byte} (h : i.Presents (.first n data))
    {s : State} (hn : ¬ s.cfg.maxMsg < n.toNat) : StartsReception i s := by
  rcases h with rfl | ⟨raw, rfl, hd⟩
  · exact .inl ⟨n, data, rfl⟩
  · exact .inr ⟨raw, n, data, rfl, by rw [decodeFrame_of_first hd, if_neg hn]⟩

theorem exec_fixesRecvSize (i : Instr) : FixesRecvSize (StartsReception i) (exec i) :=
  exec_of_operations i
    (drop := fun _ _ _ ht hp => by cases ht; exact ⟨hp, rfl⟩)
    (single := fun _ _ _ _ _ ht hp => by obtain ⟨-, rfl⟩ := rxSingle_next ht; cases hp)
    (first := fun n data h s t hno ht hp => by
      by_cases hn : s.cfg.maxMsg < n.toNat
      · cases (execFf_over hn).symm.trans ht
        cases hp
      · exact absurd (startsReception_of_presents h hn) hno)
    (consecutive := rxConsecutive_fixesRecvSize _)
    (flowControl := fun fs bs st => (rxFlowControl_ignoresRecv fs bs st).fixesRecvSize _)
    (init := fun _ _ _ _ _ _ ht hp => by cases ht; cases hp)
    (send := fun p _ => (execSend_ignoresRecv p).fixesRecvSize _)
    (poll := execPoll_fixesRecvSize _)
    (recv := fun cap s t _ ht hp => by
      rcases execRecv_next ht with ⟨-, rfl⟩ | ⟨-, rfl⟩
      · exact ⟨hp, rfl⟩
      · cases hp)

/-- Settles O48. -/
theorem sizeIsFixedInFlight : Obligations.SizeIsFixedInFlight := by
  refine ⟨fun i s t hsend => exec_fixesSendSize hsend s t, fun i s t hff hrx => exec_fixesRecvSize i s t ?_⟩
  rintro (⟨n, d, rfl⟩ | ⟨raw, n, d, rfl, hd⟩)
  · exact hff n d rfl
  · exact hrx raw n d rfl hd

/-! ### The configuration and the identifiers (70_reset_and_hazards.md R283, 10_state.md R23, R33) -/

/-- The two states belong to one link: the same configuration and the same identifiers. -/
structure State.SameLink (s t : State) : Prop where
  cfg : t.cfg = s.cfg
  sendId : t.send.id = s.send.id
  recvId : t.recv.id = s.recv.id

theorem State.SameLink.refl (s : State) : s.SameLink s := ⟨rfl, rfl, rfl⟩

@[simp] theorem SendContext.flowAct_id (c : SendContext) (w : Nat) (fs : Nibble) (bs st : Byte) :
    (c.flowAct w fs bs st).id = c.id := by
  rw [SendContext.flowAct, SendContext.flowWait]
  split_ifs <;> rfl

theorem execSend_sameLink {p : List Byte} {s t : State} (ht : execSend p s = .next t) : s.SameLink t := by
  by_cases hover : s.cfg.maxMsg < p.length
  · cases (execSend_over hover).symm.trans ht
    exact ⟨rfl, rfl, rfl⟩
  by_cases hshort : p.length ≤ 7
  · rw [execSend_short hshort] at ht
    split_ifs at ht <;> cases ht <;> exact ⟨rfl, rfl, rfl⟩
  · rw [execSend_long (by omega) (by omega)] at ht
    split_ifs at ht <;> cases ht <;> exact ⟨rfl, rfl, rfl⟩

theorem rxConsecutive_sameLink {sn : Nibble} {data : List Byte} {s t : State} (ht : rxConsecutive sn data s = .next t) :
    s.SameLink t := by
  rcases rxConsecutive_next ht with ⟨-, rfl⟩ | ⟨-, -, rfl⟩ | ⟨-, -, -, rfl⟩
  · exact ⟨rfl, rfl, rfl⟩
  · exact ⟨rfl, rfl, rfl⟩
  · obtain ⟨status, count, trace, e⟩ := rxProgress_writes (s.withRecv (s.recv.afterMatching s.cfg s.now data))
    rw [e]
    exact ⟨rfl, rfl, rfl⟩

theorem rxFlowControl_sameLink {fs : Nibble} {bs st : Byte} {s t : State} (ht : rxFlowControl fs bs st s = .next t) :
    s.SameLink t := by
  rw [rxFlowControl_eq] at ht
  split_ifs at ht <;> cases ht
  · exact ⟨rfl, SendContext.flowAct_id .., rfl⟩
  · exact .refl s

theorem pollTimeoutBs_sameLink (s : State) : s.SameLink (pollTimeoutBs s) := by
  rw [pollTimeoutBs]
  split_ifs <;> exact ⟨rfl, rfl, rfl⟩

theorem pollRecv_sameLink (s : State) : s.SameLink (pollRecv s) := by
  rw [pollRecv]
  split_ifs <;> exact ⟨rfl, rfl, rfl⟩

theorem State.SameLink.trans {s t u : State} (h : s.SameLink t) (h' : t.SameLink u) : s.SameLink u :=
  ⟨h'.cfg.trans h.cfg, h'.sendId.trans h.sendId, h'.recvId.trans h.recvId⟩

theorem pollConsecutive_sameLink {s t : State} (ht : pollConsecutive s = .next t) : s.SameLink t := by
  obtain ⟨-, rfl⟩ := pollConsecutive_next ht
  refine ⟨rfl, ?_, rfl⟩
  rw [State.withSend_send]
  split_ifs <;> rfl

theorem execPoll_sameLink {s t : State} (ht : execPoll s = .next t) : s.SameLink t := by
  obtain ⟨u, hu, rfl⟩ := execPoll_next ht
  refine State.SameLink.trans ?_ (pollRecv_sameLink u)
  rcases pollSend_next hu with ⟨-, rfl⟩ | ⟨-, -, rfl⟩ | ⟨-, -, v, hv, rfl⟩
  · exact .refl _
  · exact pollTimeoutBs_sameLink s
  · exact (pollConsecutive_sameLink hv).trans (pollTimeoutBs_sameLink v)

theorem execFf_sameLink {n : BitVec 12} {data : List Byte} {s t : State} (ht : execFf n data s = .next t) :
    s.SameLink t := by
  by_cases hn : s.cfg.maxMsg < n.toNat
  · cases (execFf_over hn).symm.trans ht
    exact ⟨rfl, rfl, rfl⟩
  · obtain ⟨-, rfl⟩ := rxFirst_next ((if_neg hn).symm.trans ht)
    exact ⟨rfl, rfl, rfl⟩

theorem exec_sameLink {i : Instr} (hinit : ∀ a b, i ≠ .init a b) : ∀ s t : State, exec i s = .next t → s.SameLink t :=
  exec_of_operations (P := fun op => ∀ s t : State, op s = .next t → s.SameLink t) i
    (drop := fun s _ ht => by cases ht; exact .refl s)
    (single := fun _ _ _ _ ht => by obtain ⟨-, rfl⟩ := rxSingle_next ht; exact ⟨rfl, rfl, rfl⟩)
    (first := fun _ _ _ _ _ => execFf_sameLink)
    (consecutive := fun _ _ _ _ => rxConsecutive_sameLink)
    (flowControl := fun _ _ _ _ _ => rxFlowControl_sameLink)
    (init := fun a b h => absurd h (hinit a b))
    (send := fun _ _ _ _ => execSend_sameLink)
    (poll := fun _ _ => execPoll_sameLink)
    (recv := fun _ _ _ ht => by rcases execRecv_next ht with ⟨-, rfl⟩ | ⟨-, rfl⟩ <;> exact ⟨rfl, rfl, rfl⟩)

theorem exec_cfg {i : Instr} {s t : State} (ht : exec i s = .next t) : t.cfg = s.cfg := by
  by_cases hinit : ∃ a b, i = .init a b
  · obtain ⟨a, b, rfl⟩ := hinit
    cases ht
    rfl
  · exact (exec_sameLink (fun a b h => hinit ⟨a, b, h⟩) s t ht).cfg

/-- Settles O49. -/
theorem configurationAndIdentifiersAreFixed : Obligations.ConfigurationAndIdentifiersAreFixed := by
  refine ⟨fun s t ht => ?step, fun i s t hinit ht => ?ids⟩
  case step =>
    rcases step_next ht with ⟨-, rfl⟩ | ⟨r, rest, -, ⟨i, -, hi⟩ | ⟨-, rfl⟩⟩
    · rfl
    · have hcfg := exec_cfg hi
      exact hcfg
    · rfl
  case ids =>
    have hlink := exec_sameLink hinit s t ht
    exact ⟨hlink.sendId, hlink.recvId⟩

/-! # The read-back (30_encoding.md R112) -/

theorem sendStatusCode_inj {a b : SendStatus} : sendStatusCode a = sendStatusCode b ↔ a = b := by
  cases a <;> cases b <;> decide

theorem recvStatusCode_inj {a b : RecvStatus} : recvStatusCode a = recvStatusCode b ↔ a = b := by
  cases a <;> cases b <;> decide

theorem protocolResultCode_inj {a b : ProtocolResult} : protocolResultCode a = protocolResultCode b ↔ a = b := by
  cases a <;> cases b <;> decide

/-- Settles O50: each of the four codes is injective. -/
theorem readBackShowsStatusesAndResults : Obligations.ReadBackShowsStatusesAndResults := by
  intro s t
  simp only [readBack, Prod.mk.injEq, sendStatusCode_inj, recvStatusCode_inj, protocolResultCode_inj]

/-! # The clock (60_exceptions.md R258 to R261) -/

theorem after_iff (a b : Time) : after a b = true ↔ 1 ≤ (a - b).toNat ∧ (a - b).toNat ≤ 2147483647 := by
  rw [after, decide_eq_true_iff]

/-- Settles O51: what has gone by since the deadline is what has gone by since the arming less the period, modulo
2^32. -/
theorem deadlinesAreExactAcrossTheWrap : Obligations.DeadlinesAreExactAcrossTheWrap := by
  intro armed now period hperiod hduty
  have hsince : (now - deadline armed period).toNat = ((now - armed).toNat + (4294967296 - period)) % 4294967296 := by
    rw [deadline, ← BitVec.sub_sub, BitVec.toNat_sub, BitVec.toNat_ofNat]
    omega
  rw [after_iff, hsince]
  have hduty : (now - armed).toNat < 2147483648 - period := hduty
  omega

/-- The condition of 41_send.md R156 step (a), R157. -/
theorem SendContext.maySend_iff (c : SendContext) (now : Time) : c.maySend now = true ↔
    0 < c.bsCredit.toNat ∧ (c.stMin = 0 ∨ after now (c.timerSt + c.stMin.setWidth 32) = true) := by
  rw [SendContext.maySend, Bool.and_eq_true, Bool.or_eq_true, decide_eq_true_iff, decide_eq_true_iff]

/-- Settles O53: a POLL that transmits found the pacing open, and with a separation time that is the clock's
comparison. -/
theorem consecutiveFramesKeepTheirDistance : Obligations.ConsecutiveFramesKeepTheirDistance := by
  intro s t ht hne hst
  rcases execPoll_trace ht with e | ⟨hm, -⟩
  · exact absurd e hne
  obtain ⟨-, hzero | hopen⟩ := (s.send.maySend_iff s.now).mp hm
  · exact absurd hzero hst
  rw [after_iff, ← BitVec.sub_sub, BitVec.toNat_sub, BitVec.toNat_setWidth] at hopen
  have hbyte := s.send.stMin.isLt
  omega

end Sys2Proof.Machine

/-! # INIT (70_reset_and_hazards.md R280) and SEND (41_send.md section 1) -/

namespace Sys2Proof.Machine

/-- Settles O9: INIT answers the two fresh contexts over the buffers it found. -/
theorem initResetsEveryRegister : Obligations.InitResetsEveryRegister := by
  intro s a b
  refine ⟨_, rfl, rfl, rfl, rfl, rfl, rfl, rfl, rfl, rfl, rfl, rfl, rfl, ?_⟩
  exact ⟨rfl, rfl, rfl, rfl, rfl, rfl, rfl, rfl, fun _ => rfl, fun _ => rfl, ⟨rfl, rfl, rfl, rfl⟩, rfl, rfl⟩

/-- Settles O10. -/
theorem resetIsAfterInit : Obligations.ResetIsAfterInit := ⟨rfl, rfl⟩

section
variable {s : State} {p : List Byte}

/-- Settles O11. -/
theorem sendOverLengthChangesNothing : Obligations.SendOverLengthChangesNothing := fun _ _ => execSend_over

/-! ### SEND by the answer of the transport (R152, R153, R155) -/

theorem exec_send_short_accepted (h : p.length ≤ 7) (hok : s.txOk = true) :
    exec (.send p) s = .next (((s.transmit (encodeSingle s.cfg.pad p)).withSend
      { s.send.afterCopy p with status := .idle, result := .ok }).respond (.sent .retOk)) :=
  (execSend_short h).trans (if_pos hok)

theorem exec_send_short_refused (h : p.length ≤ 7) (hok : s.txOk = false) :
    exec (.send p) s = .next (((s.transmit (encodeSingle s.cfg.pad p)).withSend
      (s.send.afterCopy p).txFailed).respond (.sent .retError)) :=
  (execSend_short h).trans (if_neg (by simp [hok]))

theorem exec_send_long_accepted (h : 8 ≤ p.length) (hp : p.length ≤ s.cfg.maxMsg) (hok : s.txOk = true) :
    exec (.send p) s = .next (((s.transmit (encodeFirst (BitVec.ofNat 12 p.length) (p.take 6))).withSend
      ((s.send.afterCopy p).started s.cfg s.now)).respond (.sent .retOk)) :=
  (execSend_long h hp).trans (if_pos hok)

theorem exec_send_long_refused (h : 8 ≤ p.length) (hp : p.length ≤ s.cfg.maxMsg) (hok : s.txOk = false) :
    exec (.send p) s = .next (((s.transmit (encodeFirst (BitVec.ofNat 12 p.length) (p.take 6))).withSend
      (s.send.afterCopy p).txFailed).respond (.sent .retError)) :=
  (execSend_long h hp).trans (if_neg (by simp [hok]))

/-- The copy of a SEND holds the payload's bytes and length (R151). -/
theorem SendContext.afterCopy_get (c : SendContext) {a : Nat} (h : a < p.length) :
    (c.afterCopy p).buf.get a = p[a] := Memory.get_write_zero c.buf h

theorem SendContext.afterCopy_get_past (c : SendContext) {a : Nat} (h : p.length ≤ a) :
    (c.afterCopy p).buf.get a = c.buf.get a := Memory.get_write_zero_past c.buf h

theorem SendContext.afterCopy_size (c : SendContext) {cfg : Config} (h : p.length ≤ cfg.maxMsg) :
    (c.afterCopy p).size.toNat = p.length := toNat_ofNat_of_le_maxMsg h

/-- Whatever the path, an accepted length leaves the copy in the send buffer (R151). -/
theorem execSend_buf (hp : p.length ≤ s.cfg.maxMsg) {t : State} (ht : execSend p s = .next t) :
    t.send.buf = (s.send.afterCopy p).buf := by
  by_cases hshort : p.length ≤ 7
  · rw [execSend_short hshort] at ht
    split_ifs at ht <;> cases ht <;> rfl
  · rw [execSend_long (by omega) hp] at ht
    split_ifs at ht <;> cases ht <;> rfl

end

/-- Settles O12, by the answer of the transport. -/
theorem sendShortMessage : Obligations.SendShortMessage := by
  intro s p h
  have hsize : (s.send.afterCopy p).size.toNat = p.length := s.send.afterCopy_size (h.trans s.cfg.maxMsg_ge)
  cases hok : s.txOk with
  | true =>
    refine ⟨_, exec_send_short_accepted h hok, by rw [← hok]; rfl, hsize, rfl, fun _ => ⟨rfl, rfl, rfl⟩, nofun, ?_⟩
    exact ⟨rfl, rfl, rfl, rfl, rfl, rfl, rfl, rfl, rfl, rfl, rfl, rfl⟩
  | false =>
    refine ⟨_, exec_send_short_refused h hok, by rw [← hok]; rfl, hsize, rfl, nofun, fun _ => ⟨rfl, rfl, rfl⟩, ?_⟩
    exact ⟨rfl, rfl, rfl, rfl, rfl, rfl, rfl, rfl, rfl, rfl, rfl, rfl⟩

/-- Settles O13, by the answer of the transport. -/
theorem sendLongMessage : Obligations.SendLongMessage := by
  intro s p h hp
  have hsize : (s.send.afterCopy p).size.toNat = p.length := s.send.afterCopy_size hp
  cases hok : s.txOk with
  | true =>
    refine ⟨_, exec_send_long_accepted h hp hok, by rw [← hok]; rfl, hsize, rfl, rfl, fun _ => ?_, nofun, rfl,
      rfl, rfl, rfl, rfl⟩
    exact ⟨rfl, rfl, rfl, rfl, rfl, rfl, rfl, rfl, rfl⟩
  | false =>
    refine ⟨_, exec_send_long_refused h hp hok, by rw [← hok]; rfl, hsize, rfl, rfl, nofun, fun _ => ?_, rfl,
      rfl, rfl, rfl, rfl⟩
    exact ⟨rfl, rfl, rfl, rfl, rfl, rfl, rfl, rfl, rfl⟩

/-- Settles O14: every path keeps the copy, and SEND never writes the receive context. -/
theorem sendStoresThePayload : Obligations.SendStoresThePayload := by
  intro s p hp
  obtain ⟨t, ht⟩ := execSend_completes (s := s) p
  have hbuf := execSend_buf hp ht
  refine ⟨t, ht, fun a h => ?_, fun a h => ?_, fun a => ?_⟩
  · rw [hbuf, s.send.afterCopy_get h]
  · rw [hbuf, s.send.afterCopy_get_past h]
  · rw [(execSend_ignoresRecv p).recv_eq ht]

/-! # POLL (41_send.md section 2, 43_link_ops.md R223)

With credit and open pacing the send half transmits, else it only looks at the deadline. The receive half then writes
nothing of what these statements say of the send side. -/

section
variable {s : State}

/-- POLL by its send half: the receive half keeps the send context, the record of attempts and the inputs. -/
theorem exec_poll_of_pollSend {u : State} (hu : pollSend s = .next u) :
    ∃ t, exec .poll s = .next t ∧ t.send = u.send ∧ t.trace = u.trace ∧ t.response = s.response ∧ s.SameInputs t :=
  have ht := execPoll_of_pollSend hu
  have ⟨hresponse, hinputs⟩ := execPoll_frame ht
  ⟨pollRecv u, ht, pollRecv_send, pollRecv_trace, hresponse, hinputs⟩

theorem SendContext.maySend_eq_true {c : SendContext} {now : Time} (hcredit : 0 < c.bsCredit.toNat)
    (hopen : c.stMin = 0 ∨ after now (c.timerSt + c.stMin.setWidth 32) = true) : c.maySend now = true :=
  (c.maySend_iff now).mpr ⟨hcredit, hopen⟩

theorem SendContext.maySend_eq_false {c : SendContext} {now : Time}
    (h : c.bsCredit = 0 ∨ (c.stMin ≠ 0 ∧ after now (c.timerSt + c.stMin.setWidth 32) = false)) :
    c.maySend now = false := by
  rw [← Bool.not_eq_true, c.maySend_iff]
  rintro ⟨hcredit, hopen⟩
  rcases h with hzero | ⟨hst, hclosed⟩
  · rw [hzero] at hcredit
    exact absurd hcredit (by decide)
  · rcases hopen with hzero | hopen
    · exact hst hzero
    · exact absurd (hopen.symm.trans hclosed) (by decide)

/-- An accepted consecutive frame re-arms the deadline, so that the timeout test finds it in the future (D29). -/
theorem pollSend_accepted (hle : s.send.offset.toNat + s.send.chunkLength ≤ s.cfg.maxMsg)
    (hp : s.send.status = .inProgress) (hm : s.send.maySend s.now = true)
    (hok : s.txOk = true) :
    pollSend s = .next ((s.transmit (encodeConsecutive s.cfg.pad s.send.sn
      (s.send.buf.bytes s.send.offset.toNat s.send.chunkLength))).withSend
        (s.send.advanced s.send.chunkLength s.cfg s.now)) := by
  rw [pollSend_sending hp hm, pollConsecutive_eq hle, if_pos hok, andThen_of_next,
    pollTimeoutBs_pending]
  exact not_after_deadline s.now s.cfg.nBs_lt

theorem pollSend_refused (hle : s.send.offset.toNat + s.send.chunkLength ≤ s.cfg.maxMsg)
    (hp : s.send.status = .inProgress) (hm : s.send.maySend s.now = true)
    (hok : s.txOk = false) :
    pollSend s = .next (pollTimeoutBs ((s.transmit (encodeConsecutive s.cfg.pad s.send.sn
      (s.send.buf.bytes s.send.offset.toNat s.send.chunkLength))).withSend s.send.txFailed)) := by
  rw [pollSend_sending hp hm, pollConsecutive_eq hle, if_neg (by simp [hok]), andThen_of_next]

end

/-- Settles O15: the send half answers the advanced context, and the chunk lies within the message. -/
theorem pollSendsOneConsecutiveFrame : Obligations.PollSendsOneConsecutiveFrame := by
  intro s hinv hp hcredit hopen hok
  have hm := SendContext.maySend_eq_true hcredit hopen
  obtain ⟨t, ht, hsend, htrace, hresponse, hinputs⟩ :=
    exec_poll_of_pollSend (pollSend_accepted hinv.send.chunk_le_maxMsg hp hm hok)
  replace hsend : t.send = s.send.advanced s.send.chunkLength s.cfg s.now := hsend
  have hlt := hinv.send.offset_lt_size hp
  have hchunk : s.send.chunkLength = min 7 (s.send.size.toNat - s.send.offset.toNat) := rfl
  have hoffset : (s.send.offset + BitVec.ofNat 12 s.send.chunkLength).toNat =
      s.send.offset.toNat + s.send.chunkLength :=
    toNat_add_ofNat_of_le (size := s.send.size) (by omega)
  refine ⟨t, ht, by omega, ?_, ?_⟩
  · rw [htrace, State.withSend_trace, State.transmit_trace, hok, hchunk]
  rw [hsend]
  refine ⟨?credit, hoffset, ?sn, rfl, rfl, fun h => if_pos h, fun h => (if_neg h).trans hp,
    hinv.send.result_inProgress hp, rfl, rfl, rfl, rfl, fun _ => rfl, hresponse, hinputs⟩
  case credit => rw [SendContext.advanced_bsCredit]; bv_omega
  case sn => rw [SendContext.advanced_sn]; bv_omega

/-- Settles O16: the refused attempt is followed by the test of the old deadline. -/
theorem pollTransmitFailureIsFatal : Obligations.PollTransmitFailureIsFatal := by
  intro s hinv hp hcredit hopen hok
  have hm := SendContext.maySend_eq_true hcredit hopen
  obtain ⟨t, ht, hsend, htrace, hresponse, hinputs⟩ :=
    exec_poll_of_pollSend (pollSend_refused hinv.send.chunk_le_maxMsg hp hm hok)
  refine ⟨t, ht, ?_, ?_, hresponse, hinputs⟩
  · rw [htrace, pollTimeoutBs_trace, State.withSend_trace, State.transmit_trace, hok]
    rfl
  · rw [hsend, pollTimeoutBs_eq, State.withSend_send]
    show (if after s.now s.send.timerBs = true then s.send.txFailed.abort .timeoutBs else s.send.txFailed) = _
    split_ifs <;> rfl

/-- Settles O17. -/
theorem pollWithoutCreditOnlyTimesOut : Obligations.PollWithoutCreditOnlyTimesOut := by
  intro s hp hclosed
  obtain ⟨t, ht, hsend, htrace, hresponse, hinputs⟩ :=
    exec_poll_of_pollSend (pollSend_held hp (SendContext.maySend_eq_false hclosed))
  refine ⟨t, ht, htrace.trans (pollTimeoutBs_trace s), hresponse, hinputs, ?_⟩
  rw [hsend, pollTimeoutBs_eq]
  rfl

/-- Settles O19. -/
theorem pollOutsideTransfersDoesNothing : Obligations.PollOutsideTransfersDoesNothing := by
  intro s hs hr
  rw [exec_poll_outside hs, pollRecv_pending (.inl hr)]

/-- Settles O52: no credit has come yet, so POLL only tests the deadline armed by the first frame (O13, O17), which is
exact within the clock duty (O51). -/
theorem flowControlTimeoutIsExact : Obligations.FlowControlTimeoutIsExact := by
  intro s t p clock h hp hok ht hduty
  obtain ⟨t', ht', -, -, -, -, haccepted, -, -, -⟩ := sendLongMessage s p h hp
  cases ht'.symm.trans ht
  obtain ⟨-, -, hcredit, -, -, htimer, hstatus, -, -⟩ := haccepted hok
  obtain ⟨u, hu, htrace, -, -, hsend⟩ := pollWithoutCreditOnlyTimesOut { t with now := clock } hstatus (.inl hcredit)
  have hexact : after clock t.send.timerBs = true ↔ s.cfg.nBs < (clock - s.now).toNat := by
    rw [htimer]
    exact deadlinesAreExactAcrossTheWrap s.now clock s.cfg.nBs s.cfg.nBs_lt hduty
  refine ⟨u, hu, htrace, fun hle => hsend.trans (if_neg fun ha => ?_), fun hlt => hsend.trans (if_pos (hexact.mpr hlt))⟩
  exact absurd (hexact.mp ha) (Nat.not_lt.mpr hle)

/-! # Wait frames and reserved flow statuses (41_send.md R165, R166) -/

section
variable {s : State}

theorem exec_fcWait_inside (h : s.send.status = .inProgress) (bs st : Byte) :
    exec (.fcWait bs st) s = .next (s.withSend ((s.send.armBs s.cfg s.now).flowWait s.cfg.maxWft)) := by
  rw [exec_fcWait, rxFlowControl_inside h, SendContext.flowAct_wait]

theorem SendContext.flowWait_tolerated {c : SendContext} {w : Nat} (h : (c.waitCount + 1).toNat ≤ w) :
    c.flowWait w = { c with waitCount := c.waitCount + 1 } := if_neg (by omega)

theorem SendContext.flowWait_overrun {c : SendContext} {w : Nat} (h : w < (c.waitCount + 1).toNat) :
    c.flowWait w = { c with waitCount := c.waitCount + 1, status := .error, result := .wftOverrun } := if_pos h

end

/-- Settles O24. -/
theorem reservedFlowStatusOnlyRearms : Obligations.ReservedFlowStatusOnlyRearms := by
  intro s fs bs st hfs h
  rw [exec_fcRsvd, rxFlowControl_inside h, SendContext.flowAct_reserved _ _ _ _ hfs]
  rfl

/-- Settles O21: under the invariant the count does not wrap. -/
theorem waitFrameCountsAndRearms : Obligations.WaitFrameCountsAndRearms := by
  intro s bs st hinv h
  have hle := hinv.send.waitCount_tolerated h
  have hmax := s.cfg.maxWft_le
  refine ⟨s.send.waitCount + 1, by bv_omega, ?_⟩
  rw [exec_fcWait_inside h]
  by_cases hover : s.cfg.maxWft < (s.send.waitCount + 1).toNat
  · rw [SendContext.flowWait_overrun (c := s.send.armBs s.cfg s.now) hover, if_pos hover, if_pos hover]
    rfl
  · rw [SendContext.flowWait_tolerated (c := s.send.armBs s.cfg s.now) (Nat.le_of_not_lt hover), if_neg hover,
      if_neg hover, ← h]
    rfl

/-- The context in which `n` wait frames have been counted, the deadline armed at `clock`. -/
def SendContext.counted (c : SendContext) (cfg : Config) (n : Nat) (clock : Time) : SendContext :=
  { c with waitCount := BitVec.ofNat 8 n, timerBs := deadline clock cfg.nBs }

theorem SendContext.counted_waitCount_add_one (c : SendContext) (cfg : Config) (n : Nat) (clock : Time) :
    (c.counted cfg n clock).waitCount + 1 = BitVec.ofNat 8 (n + 1) := (BitVec.ofNat_add n 1).symm

/-- The count does not wrap, since MAX_WFT is at most 254. -/
theorem SendContext.counted_toNat {c : SendContext} {cfg : Config} {n : Nat} (clock : Time) (hn : n ≤ cfg.maxWft) :
    ((c.counted cfg n clock).waitCount + 1).toNat = n + 1 := by
  have hmax := cfg.maxWft_le
  rw [counted_waitCount_add_one, BitVec.toNat_ofNat]
  omega

theorem SendContext.counted_flowWait {c : SendContext} {cfg : Config} {n : Nat} (clock : Time) (hn : n < cfg.maxWft) :
    (c.counted cfg n clock).flowWait cfg.maxWft = c.counted cfg (n + 1) clock := by
  rw [SendContext.flowWait_tolerated ((counted_toNat clock hn.le).trans_le hn), counted_waitCount_add_one]
  rfl

theorem SendContext.counted_flowWait_overrun (c : SendContext) (cfg : Config) (clock : Time) :
    (c.counted cfg cfg.maxWft clock).flowWait cfg.maxWft =
      { c.counted cfg (cfg.maxWft + 1) clock with status := .error, result := .wftOverrun } := by
  rw [SendContext.flowWait_overrun ((Nat.lt_succ_self _).trans_eq (counted_toNat clock le_rfl).symm),
    counted_waitCount_add_one]
  rfl

/-- One wait frame after `n` of them. -/
theorem exec_fcWait_counted {s : State} {n : Nat} (h : s.send.status = .inProgress)
    (hcount : s.send.waitCount = BitVec.ofNat 8 n) (bs st : Byte) (clock : Time) :
    exec (.fcWait bs st) { s with now := clock } =
      .next { s with now := clock, send := (s.send.counted s.cfg n clock).flowWait s.cfg.maxWft } := by
  rw [SendContext.counted, ← hcount]
  exact exec_fcWait_inside (s := { s with now := clock }) h bs st

/-- Wait frames in a row, all but the last of them tolerated: only the count, the deadline and the clock sample change
before the last one is judged. -/
theorem execAt_fcWait (bs st : Byte) (last : Time) (clocks : List Time) {s : State} {n : Nat}
    (h : s.send.status = .inProgress) (hcount : s.send.waitCount = BitVec.ofNat 8 n)
    (hn : n + clocks.length ≤ s.cfg.maxWft) :
    execAt (.fcWait bs st) (clocks ++ [last]) s = .next { s with
      now := last
      send := (s.send.counted s.cfg (n + clocks.length) last).flowWait s.cfg.maxWft } := by
  induction clocks generalizing s n with
  | nil => exact execAt_cons (exec_fcWait_counted h hcount bs st last)
  | cons clock clocks ih =>
    rw [List.length_cons] at hn ⊢
    have hfirst := exec_fcWait_counted h hcount bs st clock
    rw [SendContext.counted_flowWait clock (by omega)] at hfirst
    have hlast : n + (clocks.length + 1) = n + 1 + clocks.length := by omega
    rw [List.cons_append, execAt_cons hfirst, hlast]
    exact ih (s := { s with now := clock, send := s.send.counted s.cfg (n + 1) clock }) h rfl (hlast ▸ hn)

/-- Settles O22: all wait frames but the last are tolerated, and the last one is judged by the count it brings. -/
theorem waitFramesAreToleratedUpToTheMaximum : Obligations.WaitFramesAreToleratedUpToTheMaximum := by
  refine ⟨fun s bs st earlier last h hcount => ⟨fun hlt => ?tolerated, fun heq => ?overrun⟩,
    fun s bs st h => ⟨_, exec_fcCts_inside h bs st, rfl⟩,
    fun s p h hp hok => ⟨_, exec_send_long_accepted h hp hok, rfl⟩⟩
  case tolerated =>
    rw [execAt_fcWait bs st last earlier (n := 0) h hcount (by omega), Nat.zero_add,
      SendContext.counted_flowWait last hlt]
    rfl
  case overrun =>
    rw [execAt_fcWait bs st last earlier (n := 0) h hcount (by omega), Nat.zero_add, heq,
      SendContext.counted_flowWait_overrun]
    rfl

end Sys2Proof.Machine

/-! # Frames of the receive side and RECV (42_receive.md)

Each frame's answer is given by its law of `Laws/Exec`; what is left is which bytes the write has put where. -/

namespace Sys2Proof.Machine

theorem arrivalResult_inProgress {st : RecvStatus} (h : st = .inProgress) : arrivalResult st = .unexpectedPdu := by
  rw [h]; rfl

theorem arrivalResult_other {st : RecvStatus} (h : st ≠ .inProgress) : arrivalResult st = .ok := by
  cases st with
  | inProgress => exact absurd rfl h
  | idle => rfl
  | full => rfl

/-- Settles O26. -/
theorem singleFrameIsAlwaysAccepted : Obligations.SingleFrameIsAlwaysAccepted := by
  intro s d hd
  have hle : d.length ≤ s.cfg.maxMsg := hd.trans s.cfg.maxMsg_ge
  exact ⟨_, rxSingle_eq hle, rfl, toNat_ofNat_of_le_maxMsg hle, rfl, arrivalResult_inProgress, arrivalResult_other,
    fun _ => Memory.get_write_zero s.recv.buf, fun _ => Memory.get_write_zero_past s.recv.buf,
    rfl, rfl, rfl, rfl, rfl, rfl, rfl, rfl, rfl, rfl, rfl⟩

/-- Settles O27. -/
theorem firstFrameStartsAReception : Obligations.FirstFrameStartsAReception := by
  intro s n d hd hn
  exact ⟨_, execFf_fits hn hd, rfl, rfl, rfl, rfl, bsDefault_toNat s.cfg, rfl, arrivalResult_inProgress,
    arrivalResult_other, fun _ => Memory.get_write_zero s.recv.buf,
    fun _ h => Memory.get_write_zero_past s.recv.buf (hd.trans_le h),
    rfl, rfl, rfl, rfl, rfl, rfl, rfl, rfl⟩

/-- Settles O28. -/
theorem oversizeFirstFrameIsRefused : Obligations.OversizeFirstFrameIsRefused := fun _ _ _ hn => execFf_over hn

/-- Settles O36. -/
theorem recvWithoutAMessage : Obligations.RecvWithoutAMessage := fun _ _ => execRecv_outside

/-- Settles O30: the abort leaves the receive side IDLE, where RECV finds no message and a consecutive frame no
reception. -/
theorem wrongSequenceNumberAbortsTheReception : Obligations.WrongSequenceNumberAbortsTheReception := by
  intro s sn d hp hsn
  refine ⟨_, rxConsecutive_wrong hp hsn, rfl, fun cap => execRecv_outside ?_,
    fun sn' d' => consecutiveFrameOutsideAReception _ sn' d' ?_⟩
  · exact nofun
  · exact nofun

theorem RecvContext.actualLength_toNat (c : RecvContext) : c.actualLength.toNat = c.size.toNat := by
  have hsize := c.size.isLt
  rw [RecvContext.actualLength, BitVec.toNat_setWidth]
  omega

/-- Settles O35. -/
theorem recvDrainsAHeldMessage : Obligations.RecvDrainsAHeldMessage := by
  intro s cap hinv hf
  refine ⟨_, _, execRecv_full hf hinv.recv.size_le_maxMsg, s.recv.actualLength_toNat, Memory.length_bytes ..,
    fun k hk => ?_⟩
  rw [Memory.getElem_bytes, Nat.zero_add]

/-! ### A consecutive frame with the expected number (R192 to R195) -/

section
variable {c : RecvContext} {cfg : Config} {now : Time} {data : List Byte}

/-- A byte taken from the frame. -/
theorem RecvContext.afterMatching_get {k : Nat} (h : k < data.length) (hk : k < c.size.toNat - c.offset.toNat) :
    (c.afterMatching cfg now data).buf.get (c.offset.toNat + k) = data[k] := by
  have htake : k < (data.take (c.takeLength data)).length := by
    rw [List.length_take, RecvContext.takeLength]; omega
  exact (Memory.get_write_inside c.buf c.offset.toNat _ k htake).trans List.getElem_take

/-- A byte outside the window the frame fills. -/
theorem RecvContext.afterMatching_get_outside {a : Nat}
    (h : a < c.offset.toNat ∨ c.offset.toNat + c.takeLength data ≤ a) :
    (c.afterMatching cfg now data).buf.get a = c.buf.get a := by
  refine Memory.get_write_outside c.buf c.offset.toNat _ a (h.imp_right fun hle => ?_)
  have htake := List.length_take_le (c.takeLength data) data
  omega

end

/-- Settles O31: the write, then one of the three ends of `rxProgress_cases`. -/
theorem expectedConsecutiveFrameAdvances : Obligations.ExpectedConsecutiveFrameAdvances := by
  intro s d hinv hp h1 h7
  have ht : exec (.cf s.recv.sn d) s = .next (rxProgress (s.withRecv (s.recv.afterMatching s.cfg s.now d))) :=
    (rxConsecutive_matching hp).trans (rxMatching_eq (hinv.recv.take_le_maxMsg d))
  have hoffset := hinv.recv.afterMatching_offset s.now d
  have hcount := hinv.recv.bsCount_ge hp
  have hsn : (s.recv.sn + 1).toNat = (s.recv.sn.toNat + 1) % 16 := by bv_omega
  have hread := fun k (h : k < d.length) hk =>
    RecvContext.afterMatching_get (c := s.recv) (cfg := s.cfg) (now := s.now) h hk
  have hkeep := fun a ha => RecvContext.afterMatching_get_outside (c := s.recv) (cfg := s.cfg) (now := s.now)
    (data := d) (a := a) ha
  rcases rxProgress_cases (s.withRecv (s.recv.afterMatching s.cfg s.now d)) with
    ⟨hdone, e⟩ | ⟨hmore, hz, e⟩ | ⟨hmore, hz, e⟩ <;> rw [e] at ht
  · exact ⟨_, ht, hoffset, hsn, rfl, rfl, hread, hkeep, fun _ => ⟨rfl, rfl, rfl⟩, fun hne => absurd hdone hne,
      rfl, rfl, rfl, rfl, rfl, rfl, rfl, rfl⟩
  · replace hz : s.recv.bsCount - 1 = 0 := hz
    have hone : s.recv.bsCount.toNat = 1 := by bv_omega
    exact ⟨_, ht, hoffset, hsn, rfl, rfl, hread, hkeep, fun heq => absurd heq hmore,
      fun _ => ⟨hp, fun hlt => by omega, fun _ => ⟨bsDefault_toNat s.cfg, rfl⟩⟩, rfl, rfl, rfl, rfl, rfl, rfl, rfl, rfl⟩
  · replace hz : s.recv.bsCount - 1 ≠ 0 := hz
    have hfall : (s.recv.bsCount - 1).toNat + 1 = s.recv.bsCount.toNat := by bv_omega
    exact ⟨_, ht, hoffset, hsn, rfl, rfl, hread, hkeep, fun heq => absurd heq hmore,
      fun _ => ⟨hp, fun _ => ⟨hfall, rfl⟩, fun hone => absurd hz (by bv_omega)⟩, rfl, rfl, rfl, rfl, rfl, rfl, rfl, rfl⟩

end Sys2Proof.Machine

/-! # Messages (41_send.md R169, 42_receive.md R206)

A served request is one more step of a run, so that both directions are inductions over the consecutive frames of a
message. The receiver's invariant `Receiving` and the sender's `Sending` say how far the message has come after `j` of
them; both buffers hold the message as far as that. -/

namespace Sys2Proof.Machine

/-! ### Runs of requests -/

theorem serve_append {rs rs' : List Request} {s t : State} (h : serve rs s = .next t) :
    serve (rs ++ rs') s = serve rs' t := by
  induction rs generalizing s with
  | nil => cases h; rfl
  | cons r rs ih =>
    cases hr : step { s with pending := [r] } with
    | next u =>
      rw [serve_cons hr] at h
      rw [List.cons_append, serve_cons hr, ih h]
    | fault f => rw [serve, hr] at h; cases h
    | refused f => rw [serve, hr] at h; cases h

/-- The state in which the instruction of a served request runs. -/
def State.served (s : State) (r : Request) : State :=
  { s with pending := [], now := r.now, txOk := r.txOk, response := .nothing }

theorem step_served {s : State} {r : Request} {i : Instr} (h : decode r.image = .ok i) :
    step { s with pending := [r] } = exec i (s.served r) := step_of_decode rfl h

/-! ### The bytes of a message in a buffer -/

/-- The buffer holds the first `n` bytes of the message. -/
def Memory.Holds (m : Memory) (msg : List Byte) (n : Nat) : Prop :=
  ∀ a (h : a < msg.length), a < n → m.get a = msg[a]

/-- A run of held bytes is that run of the message. -/
theorem Memory.Holds.bytes {m : Memory} {msg : List Byte} {n i k : Nat} (h : m.Holds msg n) (hn : i + k ≤ n)
    (hk : i + k ≤ msg.length) : m.bytes i k = (msg.drop i).take k := by
  refine List.ext_getElem (by simp; omega) fun j h1 h2 => ?_
  rw [Memory.length_bytes] at h1
  rw [Memory.getElem_bytes, h (i + j) (by omega) (by omega), List.getElem_take, List.getElem_drop]

/-! ### The frames of a message (41_send.md R169) -/

section
variable {msg : List Byte} {padMode : Bool}

theorem length_segments (padMode : Bool) (msg : List Byte) :
    (segments padMode msg).length = consecutiveCount msg.length + 1 := by
  rw [segments, List.length_cons, List.length_map, List.length_range]

theorem segments_getElem_zero (h : 0 < (segments padMode msg).length) :
    (segments padMode msg)[0] = encodeFirst (BitVec.ofNat 12 msg.length) (msg.take 6) := rfl

theorem segments_getElem_succ {j : Nat} (h : j + 1 < (segments padMode msg).length) :
    (segments padMode msg)[j + 1] = consecutiveFrame padMode msg (j + 1) := by
  simp only [segments, List.getElem_cons_succ, List.getElem_map, List.getElem_range]

/-- The last consecutive frame ends the message, and every other one leaves bytes to come. -/
theorem consecutiveCount_last (h : 8 ≤ msg.length) :
    1 ≤ consecutiveCount msg.length ∧ 6 + 7 * (consecutiveCount msg.length - 1) < msg.length ∧
      msg.length ≤ 6 + 7 * consecutiveCount msg.length := by
  rw [consecutiveCount]
  omega

/-- The data of a consecutive frame continue the message at a position: as many bytes of it as the frame can hold, and
past its end only padding. -/
structure ContinuesAt (msg : List Byte) (i : Nat) (data : List Byte) : Prop where
  length_ge : min 7 (msg.length - i) ≤ data.length
  length_le : data.length ≤ 7
  getElem : ∀ k (h : k < data.length) (hk : i + k < msg.length), data[k] = msg[i + k]

theorem decodeShape_consecutiveFrame (padMode : Bool) {j : Nat} (h : 6 + 7 * j < msg.length) :
    ∃ data, decodeShape (consecutiveFrame padMode msg (j + 1)) = .ok (.consecutive (BitVec.ofNat 4 (j + 1)) data) ∧
      ContinuesAt msg (6 + 7 * j) data := by
  have hlen : ((msg.drop (6 + 7 * j)).take 7).length = min 7 (msg.length - (6 + 7 * j)) := by
    rw [List.length_take, List.length_drop]
  refine ⟨_, decodeShape_encodeConsecutive padMode (BitVec.ofNat 4 (j + 1)) ((msg.drop (6 + 7 * j)).take 7)
    (by omega) (by omega), ?_⟩
  cases padMode with
  | false =>
    exact ⟨hlen.ge, by simp only [Bool.false_eq_true, if_false]; omega, fun k hk hm => by
      simp only [Bool.false_eq_true, if_false, List.getElem_take, List.getElem_drop]⟩
  | true =>
    refine ⟨by simp only [if_true, List.length_append]; omega, by
      simp only [if_true, List.length_append, List.length_replicate]; omega, fun k hk hm => ?_⟩
    simp only [if_true, List.length_append, List.length_replicate] at hk ⊢
    rw [List.getElem_append_left (by omega), List.getElem_take, List.getElem_drop]

end

/-! ### The receiver (42_receive.md R206) -/

/-- The reception after the first frame and `j` consecutive frames of the message, the requests `served` since `s`. -/
structure Receiving (s : State) (msg : List Byte) (served : List Request) (j : Nat) (t : State) : Prop where
  cfg : t.cfg = s.cfg
  send : t.send = s.send
  status : t.recv.status = .inProgress
  size : t.recv.size.toNat = msg.length
  offset : t.recv.offset.toNat = 6 + 7 * j
  sn : t.recv.sn = BitVec.ofNat 4 (j + 1)
  bsCount : t.recv.bsCount.toNat = s.cfg.bsDefault - j % s.cfg.bsDefault
  holds : t.recv.buf.Holds msg (6 + 7 * j)
  served_length : served.length = j + 1
  trace : t.trace = s.trace ++ continueAttempts s.cfg s.send.id served

/-- The message held after its last consecutive frame. -/
structure Delivered (s : State) (msg : List Byte) (served : List Request) (t : State) : Prop where
  cfg : t.cfg = s.cfg
  send : t.send = s.send
  status : t.recv.status = .full
  result : t.recv.result = .ok
  size : t.recv.size.toNat = msg.length
  holds : t.recv.buf.Holds msg msg.length
  trace : t.trace = s.trace ++ continueAttempts s.cfg s.send.id served

section
variable {s t : State} {msg : List Byte} {served : List Request} {j : Nat} {r : Request}

/-- The request is the RX of the frame. -/
def Delivers (r : Request) (f : List Byte) : Prop := r.image = .command { op := 0b00100, raw := f }

theorem Delivers.step {f : List Byte} {frame : Frame} (h : Delivers r f) (hf : decodeShape f = .ok frame) :
    step { t with pending := [r] } = exec (instrOfFrame frame) (t.served r) :=
  (step_served (i := .rx f) (by rw [h]; rfl)).trans (execRx_ok hf _)

/-- The first frame (R185): the block is full, and its "continue" is the first attempt. -/
theorem Receiving.first (h : 8 ≤ msg.length) (hm : msg.length ≤ s.cfg.maxMsg)
    (hr : Delivers r (encodeFirst (BitVec.ofNat 12 msg.length) (msg.take 6))) :
    ∃ t, step { s with pending := [r] } = .next t ∧ Receiving s msg [r] 0 t := by
  have hlen : (msg.take 6).length = 6 := List.length_take_of_le (by omega)
  have hsize : (BitVec.ofNat 12 msg.length).toNat = msg.length := toNat_ofNat_of_le_maxMsg hm
  have hframe := decodeShape_encodeFirst (BitVec.ofNat 12 msg.length) (msg.take 6) (by omega) hlen
  refine ⟨_, (hr.step hframe).trans (execFf_fits (by rw [hsize]; exact hm) hlen), ?_⟩
  exact {
    cfg := rfl
    send := rfl
    status := rfl
    size := hsize
    offset := rfl
    sn := rfl
    bsCount := by rw [Nat.zero_mod, Nat.sub_zero]; exact bsDefault_toNat s.cfg
    holds := fun a ha hlt => (Memory.get_write_zero _ (by omega)).trans List.getElem_take
    served_length := rfl
    trace := by
      rw [← List.nil_append [r], continueAttempts_concat, List.length_nil, Nat.zero_mod, if_pos rfl]
      rfl }

/-- A consecutive frame takes what the message still needs of it, at most 7 bytes (R190). -/
theorem Receiving.takeLength (h : Receiving s msg served j t) {data : List Byte}
    (hd : ContinuesAt msg (6 + 7 * j) data) : t.recv.takeLength data = min 7 (msg.length - (6 + 7 * j)) := by
  have hge := hd.length_ge
  have hle := hd.length_le
  rw [RecvContext.takeLength, h.size, h.offset]
  omega

/-- The position after the next consecutive frame. -/
theorem Receiving.afterMatching_offset (h : Receiving s msg served j t) (hlt : 6 + 7 * j < msg.length)
    {data : List Byte} (hd : ContinuesAt msg (6 + 7 * j) data) (cfg : Config) (now : Time) :
    (t.recv.afterMatching cfg now data).offset.toNat = min (6 + 7 * (j + 1)) msg.length := by
  have htake := h.takeLength hd
  have hoffset := h.offset
  have hsize := h.size
  refine (toNat_add_ofNat_of_le (size := t.recv.size) ?_).trans ?_ <;> omega

theorem Receiving.afterMatching_holds (h : Receiving s msg served j t) {data : List Byte}
    (hd : ContinuesAt msg (6 + 7 * j) data) (cfg : Config) (now : Time) :
    (t.recv.afterMatching cfg now data).buf.Holds msg (6 + 7 * (j + 1)) := by
  intro a ha hlt
  have hoffset := h.offset
  have hsize := h.size
  by_cases hold : a < 6 + 7 * j
  · rw [RecvContext.afterMatching_get_outside (.inl (by omega)), h.holds a ha hold]
  · have hge := hd.length_ge
    obtain ⟨k, rfl⟩ : ∃ k, a = t.recv.offset.toNat + k := ⟨a - t.recv.offset.toNat, by omega⟩
    rw [RecvContext.afterMatching_get (by omega) (by omega), hd.getElem k (by omega) (by omega)]
    simp only [hoffset]

/-- The next consecutive frame is the expected one and fits (R192). -/
theorem Receiving.step (h : Receiving s msg served j t) (hm : msg.length ≤ s.cfg.maxMsg) {f data : List Byte}
    (hr : Delivers r f) (hf : decodeShape f = .ok (.consecutive (BitVec.ofNat 4 (j + 1)) data))
    (hd : ContinuesAt msg (6 + 7 * j) data) (hlt : 6 + 7 * j < msg.length) :
    Machine.step { t with pending := [r] } =
      .next (rxProgress ((t.served r).withRecv (t.recv.afterMatching s.cfg r.now data))) := by
  have hoffset := h.offset
  have htake := h.takeLength hd
  rw [hr.step hf, ← h.sn, ← h.cfg]
  exact (rxConsecutive_matching (s := t.served r) h.status).trans (rxMatching_eq (s := t.served r) (by
    show t.recv.offset.toNat + t.recv.takeLength data ≤ t.cfg.maxMsg
    rw [h.cfg]
    omega))

/-- The position in the block after one more consecutive frame (R194). -/
theorem succ_mod_cases {b : Nat} (hb : 1 ≤ b) (n : Nat) :
    (n % b + 1 = b ∧ (n + 1) % b = 0) ∨ (n % b + 1 < b ∧ (n + 1) % b = n % b + 1) := by
  have hlt : n % b < b := Nat.mod_lt n hb
  have hsucc : (n + 1) % b = (n % b + 1) % b := (Nat.mod_add_mod n b 1).symm
  rw [hsucc]
  rcases Nat.lt_or_eq_of_le (Nat.succ_le_of_lt hlt) with h | h
  · exact .inr ⟨h, Nat.mod_eq_of_lt h⟩
  · exact .inl ⟨h, by rw [show n % b + 1 = b from h, Nat.mod_self]⟩

/-- The reception after a further consecutive frame, with the block count and the record of attempts then set (R194). -/
theorem Receiving.advanced (h : Receiving s msg served j t) (hmore : 6 + 7 * (j + 1) < msg.length) {data : List Byte}
    (hd : ContinuesAt msg (6 + 7 * j) data) {count : Byte} {trace : List TxAttempt}
    (hcount : count.toNat = s.cfg.bsDefault - (j + 1) % s.cfg.bsDefault)
    (htrace : trace = s.trace ++ continueAttempts s.cfg s.send.id (served ++ [r])) :
    Receiving s msg (served ++ [r]) (j + 1) { t.served r with
      recv := { t.recv.afterMatching s.cfg r.now data with bsCount := count }
      trace := trace } where
  cfg := h.cfg
  send := h.send
  status := h.status
  size := h.size
  offset := (h.afterMatching_offset (by omega) hd s.cfg r.now).trans (by omega)
  sn := by rw [BitVec.ofNat_add (j + 1) 1, ← h.sn]; rfl
  bsCount := hcount
  holds := h.afterMatching_holds hd s.cfg r.now
  served_length := by rw [List.length_append, h.served_length]; rfl
  trace := htrace

/-- A consecutive frame that does not end the message (R194): a "continue" goes out where the block is used up. -/
theorem Receiving.next {padMode : Bool} (h : Receiving s msg served j t) (hm : msg.length ≤ s.cfg.maxMsg)
    (hmore : 6 + 7 * (j + 1) < msg.length) (hr : Delivers r (consecutiveFrame padMode msg (j + 1))) :
    ∃ u, Machine.step { t with pending := [r] } = .next u ∧ Receiving s msg (served ++ [r]) (j + 1) u := by
  have hlt : 6 + 7 * j < msg.length := by omega
  obtain ⟨data, hf, hd⟩ := decodeShape_consecutiveFrame padMode hlt
  have hoffset := h.afterMatching_offset hlt hd s.cfg r.now
  have hsize := h.size
  have hne : (t.recv.afterMatching s.cfg r.now data).offset ≠ (t.recv.afterMatching s.cfg r.now data).size := by
    intro e
    have e' : (t.recv.afterMatching s.cfg r.now data).offset.toNat = t.recv.size.toNat := congrArg BitVec.toNat e
    omega
  have hcount := h.bsCount
  have hb := s.cfg.bsDefault_ge
  refine ⟨_, h.step hm hr hf hd hlt, ?_⟩
  rcases succ_mod_cases hb j with ⟨hend, hzero⟩ | ⟨hmid, hsucc⟩
  · have hz : t.recv.bsCount - 1 = 0 := by bv_omega
    rw [rxProgress_reload (s := (t.served r).withRecv (t.recv.afterMatching s.cfg r.now data)) hne hz]
    refine h.advanced hmore hd ?count ?trace
    case count => rw [hzero, ← h.cfg]; exact bsDefault_toNat t.cfg
    case trace =>
      rw [continueAttempts_concat, h.served_length, if_pos hzero, ← List.append_assoc, ← h.trace, ← h.cfg, ← h.send]
      rfl
  · have hz : t.recv.bsCount - 1 ≠ 0 := by bv_omega
    rw [rxProgress_count (s := (t.served r).withRecv (t.recv.afterMatching s.cfg r.now data)) hne hz]
    refine h.advanced hmore hd ?count ?trace
    case count =>
      show (t.recv.bsCount - 1).toNat = _
      bv_omega
    case trace =>
      rw [continueAttempts_concat, h.served_length, if_neg (by omega), List.append_nil, ← h.trace]
      rfl

/-- The consecutive frame that ends the message (R193). -/
theorem Receiving.last {padMode : Bool} (h : Receiving s msg served j t) (hm : msg.length ≤ s.cfg.maxMsg)
    (hlt : 6 + 7 * j < msg.length) (hdone : msg.length ≤ 6 + 7 * (j + 1))
    (hr : Delivers r (consecutiveFrame padMode msg (j + 1))) :
    ∃ u, Machine.step { t with pending := [r] } = .next u ∧ Delivered s msg served u := by
  obtain ⟨data, hf, hd⟩ := decodeShape_consecutiveFrame padMode hlt
  have hoffset := h.afterMatching_offset hlt hd s.cfg r.now
  have hsize := h.size
  have heq : (t.recv.afterMatching s.cfg r.now data).offset = (t.recv.afterMatching s.cfg r.now data).size :=
    BitVec.eq_of_toNat_eq (hoffset.trans ((by omega : _ = msg.length).trans hsize.symm))
  refine ⟨_, h.step hm hr hf hd hlt, ?_⟩
  rw [rxProgress_complete heq]
  exact {
    cfg := h.cfg
    send := h.send
    status := rfl
    result := rfl
    size := hsize
    holds := fun a ha _ => h.afterMatching_holds hd s.cfg r.now a ha (by omega)
    trace := h.trace }

/-! ### The reception as a run -/

section
variable {padMode : Bool} {requests : List Request}

theorem delivers_getElem
    (hr : requests.map Request.image = (segments padMode msg).map (fun f => .command { op := 0b00100, raw := f }))
    {k : Nat} (hk : k < requests.length) (hk' : k < (segments padMode msg).length) :
    Delivers requests[k] (segments padMode msg)[k] := by
  have e := List.getElem_of_eq hr (i := k) (by rwa [List.length_map])
  rwa [List.getElem_map, List.getElem_map] at e

theorem length_requests
    (hr : requests.map Request.image = (segments padMode msg).map (fun f => .command { op := 0b00100, raw := f })) :
    requests.length = consecutiveCount msg.length + 1 := by
  have e := congrArg List.length hr
  rwa [List.length_map, List.length_map, length_segments] at e

variable (h : 8 ≤ msg.length) (hm : msg.length ≤ s.cfg.maxMsg)
  (hr : requests.map Request.image = (segments padMode msg).map (fun f => .command { op := 0b00100, raw := f }))
include h hm hr

/-- The reception before its last frame, by induction on the consecutive frames. -/
theorem serve_receiving {j : Nat} (hj : j < consecutiveCount msg.length) :
    ∃ t, serve (requests.take (j + 1)) s = .next t ∧ Receiving s msg (requests.take (j + 1)) j t := by
  have hlen := length_requests hr
  obtain ⟨hone, hlast, -⟩ := consecutiveCount_last h
  have hseg := length_segments padMode msg
  induction j with
  | zero =>
    have hfirst := delivers_getElem hr (k := 0) (by omega) (by omega)
    rw [segments_getElem_zero] at hfirst
    obtain ⟨t, ht, hrec⟩ := Receiving.first h hm hfirst
    have htake : requests.take (0 + 1) = [requests[0]] := (List.take_append_getElem (by omega)).symm
    rw [htake]
    exact ⟨t, serve_cons ht, hrec⟩
  | succ j ih =>
    obtain ⟨t, ht, hrec⟩ := ih (by omega)
    have hnext := delivers_getElem hr (k := j + 1) (by omega) (by omega)
    rw [segments_getElem_succ] at hnext
    obtain ⟨u, hu, hrec'⟩ := hrec.next hm (by omega) hnext
    rw [← List.take_append_getElem (show j + 1 < requests.length by omega)]
    exact ⟨u, (serve_append ht).trans (serve_cons hu), hrec'⟩

theorem serve_delivered :
    ∃ t, serve requests s = .next t ∧ Delivered s msg (requests.take (consecutiveCount msg.length)) t := by
  have hlen := length_requests hr
  have hseg := length_segments padMode msg
  obtain ⟨hone, hlast, hdone⟩ := consecutiveCount_last h
  obtain ⟨j, hj⟩ : ∃ j, consecutiveCount msg.length = j + 1 := ⟨_, (Nat.sub_add_cancel hone).symm⟩
  rw [hj] at hlen hseg hlast hdone ⊢
  obtain ⟨t, ht, hrec⟩ := serve_receiving h hm hr (j := j) (by omega)
  have hend := delivers_getElem hr (k := j + 1) (by omega) (by omega)
  rw [segments_getElem_succ] at hend
  obtain ⟨u, hu, hdel⟩ := hrec.last hm hlast hdone hend
  have hall : requests = requests.take (j + 1) ++ [requests[j + 1]] := by
    rw [List.take_append_getElem, List.take_of_length_le hlen.le]
  refine ⟨u, ?_, hdel⟩
  rw [hall, serve_append ht]
  exact serve_cons hu

end

/-- RECV of a delivered message with room for it (R200). -/
theorem Delivered.recv (h : Delivered s msg served t) (hm : msg.length ≤ s.cfg.maxMsg) {cap : BitVec 16}
    (hcap : msg.length ≤ cap.toNat) : ∃ (u : State) (len : BitVec 16), exec (.recv cap) t = .next u ∧
      u.response = .received .retOk len msg ∧ len.toNat = msg.length := by
  have hdrain : t.recv.drainLength cap = msg.length := by rw [RecvContext.drainLength, h.size]; omega
  have hbytes : t.recv.buf.bytes 0 msg.length = msg := by
    rw [h.holds.bytes (by omega) (by omega), List.drop_zero, List.take_length]
  refine ⟨_, t.recv.actualLength, execRecv_full h.status (by rw [h.size, h.cfg]; exact hm), ?_,
    t.recv.actualLength_toNat.trans h.size⟩
  rw [State.respond_response, hdrain, hbytes]

end

/-- Settles O54: the reception runs to its last frame, which completes it, and RECV hands the message out. -/
theorem reassemblyIsByteExact : Obligations.ReassemblyIsByteExact := by
  intro s padMode msg requests h hm hr
  obtain ⟨t, ht, hdel⟩ := serve_delivered h hm hr
  exact ⟨t, ht, hdel.status, hdel.result, hdel.send, hdel.trace, fun _ hcap => hdel.recv hm hcap⟩

end Sys2Proof.Machine

/-! # A fed send transmits the segmentation of its message (41_send.md R153, R158, R169) -/

namespace Sys2Proof.Machine

/-- The accepted attempts of the frames under the identifier. -/
def attempts (id : Ident) (frames : List (List Byte)) : List TxAttempt :=
  frames.map fun f => { id := id, frame := f, ok := true }

theorem attempts_concat (id : Ident) (frames : List (List Byte)) (f : List Byte) :
    attempts id (frames ++ [f]) = attempts id frames ++ [{ id := id, frame := f, ok := true }] :=
  List.map_append

/-- The send of the message after its first frame and `j` consecutive frames; after the last of them it is over. -/
structure Sending (s : State) (msg : List Byte) (j : Nat) (t : State) : Prop where
  cfg : t.cfg = s.cfg
  id : t.send.id = s.send.id
  status : t.send.status = if msg.length ≤ 6 + 7 * j then .idle else .inProgress
  result : t.send.result = .ok
  size : t.send.size.toNat = msg.length
  offset : t.send.offset.toNat = min (6 + 7 * j) msg.length
  sn : t.send.sn = BitVec.ofNat 4 (j + 1)
  holds : t.send.buf.Holds msg msg.length
  trace : t.trace = s.trace ++ attempts s.send.id ((segments s.cfg.pad msg).take (j + 1))

section
variable {s t : State} {msg : List Byte} {j : Nat} {r : Request}

/-- The SEND (R153). -/
theorem Sending.first (h : 8 ≤ msg.length) (hm : msg.length ≤ s.cfg.maxMsg)
    (hr : r.image = .command { op := 0b00010, payload := msg }) (hok : r.txOk = true) :
    ∃ t, step { s with pending := [r] } = .next t ∧ Sending s msg 0 t := by
  have hstep : step { s with pending := [r] } = exec (.send msg) (s.served r) := step_served (by rw [hr]; rfl)
  refine ⟨_, hstep.trans (exec_send_long_accepted h hm hok), ?_⟩
  exact {
    cfg := rfl
    id := rfl
    status := (if_neg (by omega)).symm
    result := rfl
    size := toNat_ofNat_of_le_maxMsg hm
    offset := (Nat.min_eq_left (by omega : 6 + 7 * 0 ≤ msg.length)).symm
    sn := rfl
    holds := fun a ha _ => s.send.afterCopy_get ha
    trace := by
      rw [State.respond_trace, State.withSend_trace, State.transmit_trace]
      show s.trace ++ [TxAttempt.mk s.send.id _ r.txOk] = _
      rw [hok]
      rfl }

/-- The send after the "continue" of a feed: credit for the next frame, and no separation time (R164). -/
structure Fed (s : State) (msg : List Byte) (j : Nat) (t : State) : Prop extends Sending s msg j t where
  credit : 0 < t.send.bsCredit.toNat
  unpaced : t.send.stMin = 0

theorem decode_continue (bs : Byte) : decode (.frame [0x30, bs, 0x00]) = .ok (.fcCts bs 0x00) :=
  decodeFrameImage_ok (decodeShape_flowControl fsContinue bs 0 [] (by decide))

theorem Sending.feed (h : Sending s msg j t) (hmore : 6 + 7 * j < msg.length) {bs : Byte} (hbs : bs ≠ 0)
    (hr : r.image = .frame [0x30, bs, 0x00]) :
    ∃ u, step { t with pending := [r] } = .next u ∧ Fed s msg j u := by
  have hp : t.send.status = .inProgress := h.status.trans (if_neg (by omega))
  have hstep : step { t with pending := [r] } = exec (.fcCts bs 0x00) (t.served r) :=
    step_served (by rw [hr]; exact decode_continue bs)
  refine ⟨_, hstep.trans (exec_fcCts_inside (s := t.served r) hp bs 0x00), ?_⟩
  exact { h with
    credit := by
      show 0 < bs.toNat
      bv_omega
    unpaced := rfl }

/-- What the next POLL transmits is the next consecutive frame of the message. -/
theorem Sending.chunk_eq (h : Sending s msg j t) (hmore : 6 + 7 * j < msg.length) :
    encodeConsecutive s.cfg.pad t.send.sn (t.send.buf.bytes t.send.offset.toNat t.send.chunkLength) =
      consecutiveFrame s.cfg.pad msg (j + 1) := by
  have hoffset : t.send.offset.toNat = 6 + 7 * j := h.offset.trans (Nat.min_eq_left hmore.le)
  have hchunk : t.send.chunkLength = min 7 (msg.length - (6 + 7 * j)) := by
    rw [SendContext.chunkLength, h.size, hoffset]
  have hbytes : t.send.buf.bytes (6 + 7 * j) (min 7 (msg.length - (6 + 7 * j))) = (msg.drop (6 + 7 * j)).take 7 := by
    rw [h.holds.bytes (by omega) (by omega), ← List.length_drop, ← List.take_eq_take_min]
  rw [hchunk, hoffset, hbytes, h.sn]
  rfl

/-- The POLL of a feed (R158). -/
theorem Fed.poll (h : Fed s msg j t) (hm : msg.length ≤ s.cfg.maxMsg) (hmore : 6 + 7 * j < msg.length)
    (hr : r.image = .command { op := 0b01000 }) (hok : r.txOk = true) :
    ∃ u, step { t with pending := [r] } = .next u ∧ Sending s msg (j + 1) u := by
  have hp : t.send.status = .inProgress := h.status.trans (if_neg (by omega))
  have hsize := h.size
  have hoffset : t.send.offset.toNat = 6 + 7 * j := h.offset.trans (Nat.min_eq_left hmore.le)
  have hchunk : t.send.chunkLength = min 7 (msg.length - (6 + 7 * j)) := by
    rw [SendContext.chunkLength, hsize, hoffset]
  have hfits : t.send.offset.toNat + t.send.chunkLength ≤ t.cfg.maxMsg := by rw [h.cfg]; omega
  have hadvance : (t.send.offset + BitVec.ofNat 12 t.send.chunkLength).toNat = min (6 + 7 * (j + 1)) msg.length :=
    (toNat_add_ofNat_of_le (size := t.send.size) (by omega)).trans (by omega)
  have hend : t.send.offset + BitVec.ofNat 12 t.send.chunkLength = t.send.size ↔ msg.length ≤ 6 + 7 * (j + 1) := by
    rw [← BitVec.toNat_inj, hadvance, hsize]
    omega
  have hstep : step { t with pending := [r] } = exec .poll (t.served r) := step_served (by rw [hr]; rfl)
  obtain ⟨u, hu, hsend, htrace, -, hinputs⟩ := exec_poll_of_pollSend (pollSend_accepted (s := t.served r) hfits hp
    (SendContext.maySend_eq_true h.credit (.inl h.unpaced)) hok)
  replace hsend : u.send = t.send.advanced t.send.chunkLength t.cfg r.now := hsend
  replace htrace : u.trace = t.trace ++ [{
      id := t.send.id
      frame := encodeConsecutive t.cfg.pad t.send.sn (t.send.buf.bytes t.send.offset.toNat t.send.chunkLength)
      ok := r.txOk }] := htrace
  refine ⟨u, hstep.trans hu, ?_⟩
  exact {
    cfg := hinputs.cfg.trans h.cfg
    id := by rw [hsend]; exact h.id
    status := by rw [hsend, SendContext.advanced_status, hp]; simp only [hend]
    result := by rw [hsend]; exact h.result
    size := by rw [hsend]; exact hsize
    offset := by rw [hsend]; exact hadvance
    sn := by rw [hsend, SendContext.advanced_sn, h.sn, BitVec.ofNat_add (j + 1) 1]; rfl
    holds := by rw [hsend]; exact h.holds
    trace := by
      have hcount : j + 1 < (segments s.cfg.pad msg).length := by rw [length_segments, consecutiveCount]; omega
      rw [htrace, h.trace, h.id, h.cfg, hok, h.chunk_eq hmore, List.append_assoc, ← attempts_concat,
        ← List.take_append_getElem hcount, segments_getElem_succ] }

/-- Each feed is a "continue" and a POLL; the induction is over the credits that are left. -/
theorem Sending.serve_feeds (hm : msg.length ≤ s.cfg.maxMsg) (credits : List Byte) {requests : List Request}
    (h : Sending s msg j t) (hj : j + credits.length = consecutiveCount msg.length) (hnz : ∀ bs ∈ credits, bs ≠ 0)
    (hok : ∀ r ∈ requests, r.txOk = true)
    (hr : requests.map Request.image =
      credits.flatMap fun bs => [.frame [0x30, bs, 0x00], .command { op := 0b01000 }]) :
    ∃ u, serve requests t = .next u ∧ Sending s msg (consecutiveCount msg.length) u := by
  induction credits generalizing j t requests with
  | nil =>
    obtain rfl := List.map_eq_nil_iff.mp hr
    exact ⟨t, rfl, hj ▸ h⟩
  | cons bs credits ih =>
    rw [List.length_cons] at hj
    have hmore : 6 + 7 * j < msg.length := by rw [consecutiveCount] at hj; omega
    obtain ⟨r, _, rfl, hr1, hr⟩ := List.map_eq_cons_iff.mp hr
    obtain ⟨r', rest, rfl, hr2, hr⟩ := List.map_eq_cons_iff.mp hr
    obtain ⟨u, hu, hfed⟩ := h.feed hmore (hnz bs (List.mem_cons_self ..)) hr1
    obtain ⟨v, hv, hsent⟩ := hfed.poll hm hmore hr2 (hok r' (by simp))
    obtain ⟨w, hw, hdone⟩ := ih hsent (by omega) (fun b hb => hnz b (List.mem_cons_of_mem _ hb))
      (fun x hx => hok x (List.mem_cons_of_mem _ (List.mem_cons_of_mem _ hx))) hr
    exact ⟨w, (serve_cons hu).trans ((serve_cons hv).trans hw), hdone⟩

end

/-- Settles O55: after the last feed all frames of the message have been attempted and the send is over. -/
theorem senderTransmitsTheSegmentation : Obligations.SenderTransmitsTheSegmentation := by
  intro s msg requests credits h hm hlen hnz hok hr
  obtain ⟨r, rest, rfl, hr1, hr⟩ := List.map_eq_cons_iff.mp hr
  obtain ⟨t, ht, hsending⟩ := Sending.first h hm hr1 (hok r (List.mem_cons_self ..))
  obtain ⟨u, hu, hdone⟩ := hsending.serve_feeds hm credits (by omega) hnz
    (fun x hx => hok x (List.mem_cons_of_mem _ hx)) hr
  obtain ⟨-, -, hend⟩ := consecutiveCount_last h
  refine ⟨u, (serve_cons ht).trans hu, hdone.status.trans (if_pos hend), hdone.result, ?_⟩
  rw [hdone.trace, ← length_segments s.cfg.pad, List.take_length]
  rfl

/-- Settles O56: what the first link attempted are the frames of the message (O55), and they reassemble (O54). -/
theorem twoLinksCarryTheMessage : Obligations.TwoLinksCarryTheMessage := by
  intro a a' b msg feeds deliveries credits h hma hmb hlen hnz hok hfeeds ha hdeliveries
  obtain ⟨t, ht, -, -, htrace⟩ := senderTransmitsTheSegmentation a msg feeds credits h hma hlen hnz hok hfeeds
  cases ht.symm.trans ha
  rw [htrace, List.drop_left, List.map_map] at hdeliveries
  obtain ⟨b', hb', hfull, -, -, -, hrecv⟩ := reassemblyIsByteExact b a.cfg.pad msg deliveries h hmb hdeliveries
  exact ⟨b', hb', hfull, hrecv⟩

end Sys2Proof.Machine
